-- ==== Sys2Proof/Word.lean ====
section
/-! DEFINITION. The two bit-vector types of the block (R7): a byte and a 16-bit word, which is also the address. -/

namespace Sys2Proof

/-- The addressable unit, the only access width, and the width of `A`, `X`, `Y`, `SP` and `P` (R7). -/
abbrev Byte := BitVec 8

/-- The width of `PC` and of an address (R7). -/
abbrev Word := BitVec 16

end Sys2Proof
end

