-- ==== Sys2Proof/Machine/Bits.lean ====
section
/-! DEFINITION. Byte and word helpers of the notation (R10, R11): halves of a word, concatenation, extension, page crossing. -/

namespace Sys2Proof

/-- `lo(w)` = `w[7:0]` (R10). -/
def lo (w : Word) : Byte := w.extractLsb' 0 8

/-- `hi(w)` = `w[15:8]` (R10); also the page of an address. -/
def hi (w : Word) : Byte := w.extractLsb' 8 8

/-- `word(h, l)` = `{h, l}` = `l + (h << 8)` (R10). -/
def word (h l : Byte) : Word := h ++ l

/-- `zext_16(b)` (R11). -/
def zext16 (b : Byte) : Word := b.setWidth 16

/-- `sext_16(b)`: two's complement sign extension (R11). -/
def sext16 (b : Byte) : Word := b.signExtend 16

/-- `PageCross(a, b)`: the addresses lie in different 256-byte pages (R155). -/
def pageCross (a b : Word) : Bool := hi a != hi b

/-- Byte `k` (0 the first) of a number laid out as spec/opcode_table.json numbers an instruction's bits. -/
def byteOf (w k : Nat) : Byte := BitVec.ofNat 8 (w / 2 ^ (8 * k))

end Sys2Proof
end

