-- ==== Sys2Proof/Syntax.lean ====
section
/-! DEFINITION. The instructions in scope: one constructor for each of the fourteen rows of the opcode map (R2, R94). -/

namespace Sys2Proof

/-- The fourteen instructions of R94. Operands are the assembled operand bytes of R93: `rel8` is the raw signed offset byte,
`addr` and `ptr` are `word(hi8, lo8)`. -/
inductive Instr
  /-- 0x00, software interrupt (R180). -/
  | brk
  /-- 0x10, branch if `N` = 0 (R191). -/
  | bpl (rel8 : Byte)
  /-- 0x20, call (R172). -/
  | jsr (addr : Word)
  /-- 0x30, branch if `N` = 1 (R192). -/
  | bmi (rel8 : Byte)
  /-- 0x40, return from interrupt (R181). -/
  | rti
  /-- 0x4C, `JMP` Absolute (R170). -/
  | jmpAbs (addr : Word)
  /-- 0x50, branch if `V` = 0 (R193). -/
  | bvc (rel8 : Byte)
  /-- 0x60, return from subroutine (R173). -/
  | rts
  /-- 0x6C, `JMP` Indirect (R171). -/
  | jmpInd (ptr : Word)
  /-- 0x70, branch if `V` = 1 (R194). -/
  | bvs (rel8 : Byte)
  /-- 0x90, branch if `C` = 0 (R195). -/
  | bcc (rel8 : Byte)
  /-- 0xB0, branch if `C` = 1 (R196). -/
  | bcs (rel8 : Byte)
  /-- 0xD0, branch if `Z` = 0 (R197). -/
  | bne (rel8 : Byte)
  /-- 0xF0, branch if `Z` = 1 (R198). -/
  | beq (rel8 : Byte)
deriving DecidableEq, Repr

end Sys2Proof
end

