-- ==== Sys2Proof/Decode.lean ====
section
/-! DEFINITION. The opcode map (R94), the decoder (R90 to R93), and the encoder written from the same table. -/

namespace Sys2Proof

/-- The four addressing modes in scope, which are also the four formats (R91, R151 to R154). -/
inductive Mode
  | implied
  | absolute
  | indirect
  | relative
deriving DecidableEq, Repr

/-- Operand bytes an addressing mode consumes (R91, R150). -/
def Mode.operandBytes : Mode → Nat
  | .implied => 0
  | .relative => 1
  | .absolute => 2
  | .indirect => 2

/-- An addressing mode with what its operand makes: the operand assembly of R93. -/
inductive Form
  | implied (i : Instr)
  | relative (mk : Byte → Instr)
  | absolute (mk : Word → Instr)
  | indirect (mk : Word → Instr)

/-- The addressing-mode tag of a form (R96). -/
def Form.mode : Form → Mode
  | .implied _ => .implied
  | .relative _ => .relative
  | .absolute _ => .absolute
  | .indirect _ => .indirect

/-- One descriptor of the opcode map: the opcode byte and its form (R92, R96). -/
structure Descriptor where
  opcode : Byte
  form : Form

/-- The fourteen rows of R94. PRESUMED by the spec (log 6): the byte values are those of the published MOS 6502 map. -/
def opcodeTable : List Descriptor :=
  [ ⟨0x00#8, .implied .brk⟩,
    ⟨0x10#8, .relative .bpl⟩,
    ⟨0x20#8, .absolute .jsr⟩,
    ⟨0x30#8, .relative .bmi⟩,
    ⟨0x40#8, .implied .rti⟩,
    ⟨0x4C#8, .absolute .jmpAbs⟩,
    ⟨0x50#8, .relative .bvc⟩,
    ⟨0x60#8, .implied .rts⟩,
    ⟨0x6C#8, .indirect .jmpInd⟩,
    ⟨0x70#8, .relative .bvs⟩,
    ⟨0x90#8, .relative .bcc⟩,
    ⟨0xB0#8, .relative .bcs⟩,
    ⟨0xD0#8, .relative .bne⟩,
    ⟨0xF0#8, .relative .beq⟩ ]

/-- The opcode bytes of R94: the domain of the decoder. -/
def opcodeBytes : List Byte := opcodeTable.map Descriptor.opcode

/-- The 256-way table lookup of R92: `none` for the 242 bytes of R97. -/
def lookup (b : Byte) : Option Form :=
  (opcodeTable.find? fun d => d.opcode == b).map Descriptor.form

/-- What the decoder answers: an instruction with the bytes after it, or why not, by name. -/
inductive Decoded
  /-- The instruction and the bytes that follow it. -/
  | instr (i : Instr) (rest : List Byte)
  /-- The opcode byte is none of the fourteen (R97). -/
  | unsupported (opcode : Byte)
  /-- The opcode byte is known and its operand bytes are missing from the list. -/
  | truncated (opcode : Byte)
  /-- No opcode byte at all. -/
  | noBytes
deriving DecidableEq, Repr

/-- Operand assembly (R93): little-endian for the two-byte modes (R63 a). -/
def Form.assemble (op : Byte) : Form → List Byte → Decoded
  | .implied i, rest => .instr i rest
  | .relative mk, r :: rest => .instr (mk r) rest
  | .absolute mk, l :: h :: rest => .instr (mk (word h l)) rest
  | .indirect mk, l :: h :: rest => .instr (mk (word h l)) rest
  | .relative _, [] => .truncated op
  | .absolute _, [] => .truncated op
  | .absolute _, [_] => .truncated op
  | .indirect _, [] => .truncated op
  | .indirect _, [_] => .truncated op

/-- The decoder, total on every list of bytes: the first byte alone selects the descriptor (R90). -/
def decode : List Byte → Decoded
  | [] => .noBytes
  | op :: rest =>
    match lookup op with
    | none => .unsupported op
    | some f => f.assemble op rest

/-- The instruction a decoding gives, if it gives one. -/
def Decoded.instr? : Decoded → Option Instr
  | .instr i _ => some i
  | .unsupported _ => none
  | .truncated _ => none
  | .noBytes => none

/-- The bytes of an instruction at ascending addresses, from the syntax table of R102 and the formats of R91. -/
def encode : Instr → List Byte
  | .brk => [0x00#8]
  | .bpl r => [0x10#8, r]
  | .jsr a => [0x20#8, lo a, hi a]
  | .bmi r => [0x30#8, r]
  | .rti => [0x40#8]
  | .jmpAbs a => [0x4C#8, lo a, hi a]
  | .bvc r => [0x50#8, r]
  | .rts => [0x60#8]
  | .jmpInd p => [0x6C#8, lo p, hi p]
  | .bvs r => [0x70#8, r]
  | .bcc r => [0x90#8, r]
  | .bcs r => [0xB0#8, r]
  | .bne r => [0xD0#8, r]
  | .beq r => [0xF0#8, r]

/-- The addressing mode of an instruction, from the format column of R94. -/
def Instr.mode : Instr → Mode
  | .brk => .implied
  | .bpl _ => .relative
  | .jsr _ => .absolute
  | .bmi _ => .relative
  | .rti => .implied
  | .jmpAbs _ => .absolute
  | .bvc _ => .relative
  | .rts => .implied
  | .jmpInd _ => .indirect
  | .bvs _ => .relative
  | .bcc _ => .relative
  | .bcs _ => .relative
  | .bne _ => .relative
  | .beq _ => .relative

/-- The offset byte an assembler emits for a branch at `a` to `t` (R102), or none when the target is out of reach.
DESIGN CHOICE (log 30): the distance is taken modulo 65,536, the second of the two conditions R102 offers. -/
def branchOperand (a t : Word) : Option Byte :=
  let d := t - (a + 2#16)
  if sext16 (lo d) = d then some (lo d) else none

/-- The three bytes, first byte first, of an instruction whose table bits are `w` (bits at and above `nbits` are zero). -/
def tableBytes (nbits w : Nat) : List Byte :=
  let v := w % 2 ^ nbits
  [byteOf v 0, byteOf v 1, byteOf v 2]

/-- The instruction the decoder reads from a word numbered as spec/opcode_table.json numbers it. -/
def decodeTableWord (nbits w : Nat) : Option Instr := (decode (tableBytes nbits w)).instr?

end Sys2Proof
end

