-- ==== Sys2Proof/Config.lean ====
section
/-! DEFINITION. The implementation parameters of R9 that are plain data, and what an unlisted memory byte reads as.
EXT_TABLE, the one parameter that holds functions, is an argument of the step (Machine/Extension.lean). -/

namespace Sys2Proof

/-- `UNDOC_LEVEL` (R9, R98): the tiers none, partial and full. Only `tierNone` has semantics without an extension table. -/
inductive UndocLevel
  | tierNone
  | tierPartial
  | tierFull
deriving DecidableEq, Repr

/-- `STACK_POLICY` (R9, R72): what a push with `SP` = 0x00 or a pull with `SP` = 0xFF does. -/
inductive StackPolicy
  | wrap
  | raise
deriving DecidableEq, Repr

/-- The configuration inputs of R9, sampled at `start()` and constant afterwards (R120 c). -/
structure Config where
  /-- `UNDOC_LEVEL`. -/
  undocLevel : UndocLevel
  /-- `STACK_POLICY`. -/
  stackPolicy : StackPolicy
  /-- `DECIMAL_SUPPORT`: read by no in-scope rule (R9, R33). -/
  decimalSupport : Bool
  /-- `JMP_IND_PAGE_WRAP` (R153). -/
  jmpIndPageWrap : Bool
  /-- `CYC_JMP_ABS` and the five other named cycle counts (R250). -/
  cycJmpAbs : Nat
  cycJmpInd : Nat
  cycJsr : Nat
  cycRts : Nat
  cycRti : Nat
  cycBrk : Nat
deriving DecidableEq, Repr

/-- The configuration of `State.reset`. The defaults of R9 where it gives one (`JMP_IND_PAGE_WRAP` true, cycles 3, 5, 6, 6, 6, 7).
DESIGN CHOICE (log 3, unsafe): R9 leaves `UNDOC_LEVEL`, `STACK_POLICY` and `DECIMAL_SUPPORT` OPEN; here none, wrap and false. -/
def Config.standard : Config where
  undocLevel := .tierNone
  stackPolicy := .wrap
  decimalSupport := false
  jmpIndPageWrap := true
  cycJmpAbs := 3
  cycJmpInd := 5
  cycJsr := 6
  cycRts := 6
  cycRti := 6
  cycBrk := 7

/-- What an address that memory does not list reads as.
DESIGN CHOICE (log 4, unsafe for the run from `State.reset` only): R9 leaves the initial memory `M0` OPEN. A state whose
memory lists other bytes stands for any other `M0`. -/
def unlistedByte : Byte := 0x00#8

end Sys2Proof
end

