-- ==== Sys2Proof/Machine/State.lean ====
section
/-! DEFINITION. The architectural state (R20), the faults (R210), the refusals, and the state after reset (R241). -/

namespace Sys2Proof.Machine

/-- Which end of the stack page a boundary fault met (R210): `overflow` for a push, `underflow` for a pull. -/
inductive StackKind
  | overflow
  | underflow
deriving DecidableEq, Repr

/-- The four faults of R210. Each ends the step, none is vectored (R15). -/
inductive Fault
  /-- Raised by the step when the opcode byte has no descriptor (R97, R211). Safe: the spec raises it there. -/
  | unsupportedOpcode (byte : Byte) (address : Word)
  /-- Raised by a push with `SP` = 0x00 or a pull with `SP` = 0xFF under `STACK_POLICY` = raise (R72, R212).
  Safe: the spec raises it there. -/
  | stackBoundary (kind : StackKind) (sp : Byte)
  /-- Raised by every operation but `start()` while `STARTED` = 0 (R213). Safe: the source gives such a call no meaning. -/
  | notStarted
  /-- Raised by `start()` while `STARTED` = 1 (R213). Safe: the source calls the second call undefined. -/
  | alreadyStarted
deriving DecidableEq, Repr

/-- Reasons the model gives no meaning. -/
inductive Refusal
  /-- An arm of `exec` whose instruction has no meaning yet. Safe. No arm of this model answers it. -/
  | notModelled (mnemonic : String)
  /-- `start()` with `UNDOC_LEVEL` partial or full and no extension table: R98 has the model refuse to run. Safe. -/
  | undocLevelWithoutTable (level : UndocLevel)
deriving DecidableEq, Repr

/-- The six stored flags (R27); `break` is not stored (R31). -/
structure Flags where
  /-- `f[N]` negative. -/
  n : Bool
  /-- `f[V]` overflow. -/
  v : Bool
  /-- `f[D]` decimal. -/
  d : Bool
  /-- `f[I]` interrupt-disable. -/
  i : Bool
  /-- `f[Z]` zero. -/
  z : Bool
  /-- `f[C]` carry. -/
  c : Bool
deriving DecidableEq, Repr

/-- Memory as a sparse list of cells in one canonical form (`Memory.wf`). -/
abbrev Memory := List Host.Cell

/-- The state of R20. -/
structure State where
  /-- `A`, `X`, `Y` (R21). -/
  a : Byte
  x : Byte
  y : Byte
  /-- `SP`, an offset into the stack page (R22). -/
  sp : Byte
  /-- `PC` (R23). -/
  pc : Word
  /-- The six stored flags (R27). -/
  flags : Flags
  /-- `STARTED` (R37). -/
  started : Bool
  /-- `CYC` (R38). -/
  cyc : Nat
  /-- The recorded fault outcome (R20, R41): none until a fault has struck, never cleared. -/
  fault : Option Fault
  /-- The bytes on the bus (R60, R67). -/
  mem : Memory
  /-- The configuration sampled at `start()` (R120 c); no operation but `start()` writes it (log 1). -/
  cfg : Config
deriving DecidableEq, Repr

/-- What the environment decides at `start()`: the registers and flags whose values R45 leaves unspecified, and the
configuration inputs, which are sampled there (R120 c). -/
structure StartInputs where
  a : Byte
  x : Byte
  y : Byte
  sp : Byte
  flags : Flags
  cfg : Config
deriving DecidableEq, Repr

/-- The start inputs of `State.reset`. DESIGN CHOICE (log 2, unsafe): R45 leaves the registers and flags unspecified; here
`A` = `X` = `Y` = 0x00, `SP` = 0xFD and `P` = 0x24, the values R45 names as common. -/
def StartInputs.standard : StartInputs where
  a := 0x00#8
  x := 0x00#8
  y := 0x00#8
  sp := 0xFD#8
  flags := ⟨false, false, false, true, false, false⟩
  cfg := Config.standard

/-- The block before `start()`: `STARTED` = 0 and no fault (R37, R41). DESIGN CHOICE (log 33, safe): the spec gives nothing else
here; the registers, flags, `CYC` and configuration are placeholders that no operation can look at and `start()` overwrites. -/
def State.powerOn : State where
  a := 0x00#8
  x := 0x00#8
  y := 0x00#8
  sp := 0x00#8
  pc := 0x0000#16
  flags := ⟨false, false, false, false, false, false⟩
  started := false
  cyc := 0
  fault := none
  mem := []
  cfg := Config.standard

/-- The machine right after reset, that is after `start()` (R240, R241): `PC` is the word the vector reads on a memory that
lists nothing (log 5), `STARTED` = 1, `CYC` = 0; the rest from `StartInputs.standard` (log 2, log 3). -/
def State.reset : State where
  a := StartInputs.standard.a
  x := StartInputs.standard.x
  y := StartInputs.standard.y
  sp := StartInputs.standard.sp
  pc := unlistedByte ++ unlistedByte
  flags := StartInputs.standard.flags
  started := true
  cyc := 0
  fault := none
  mem := []
  cfg := StartInputs.standard.cfg

/-- The answer of an operation of the machine: a value, a fault or a refusal. -/
abbrev Result (α : Type) := Host.Outcome α Fault Refusal

end Sys2Proof.Machine
end

