-- ==== Sys2Proof/Machine/Flags.lean ====
section
/-! DEFINITION. The flags by name and the status byte `P` (R27 to R34). -/

namespace Sys2Proof.Machine

/-- The seven flag names of the source's flag set (R27, R129); `brk` is the break name, which is not stored. -/
inductive FlagName
  | carry
  | zero
  | interruptDisable
  | decimal
  | brk
  | overflow
  | negative
deriving DecidableEq, Repr

/-- `f[n]`; the break name reads 0 (R129). -/
def Flags.get (f : Flags) : FlagName → Bool
  | .carry => f.c
  | .zero => f.z
  | .interruptDisable => f.i
  | .decimal => f.d
  | .brk => false
  | .overflow => f.v
  | .negative => f.n

/-- `f[n] <- b`; for the break name nothing (R130, R131). -/
def Flags.set (f : Flags) (name : FlagName) (b : Bool) : Flags :=
  match name with
  | .carry => { f with c := b }
  | .zero => { f with z := b }
  | .interruptDisable => { f with i := b }
  | .decimal => { f with d := b }
  | .brk => f
  | .overflow => { f with v := b }
  | .negative => { f with n := b }

/-- `PackP(brk)` = the byte `N V 1 brk D I Z C` (R30). PRESUMED by the spec (log 7): the published bit layout. -/
def packP (brk : Bool) (f : Flags) : Byte :=
  BitVec.ofBool f.n ++ BitVec.ofBool f.v ++ 1#1 ++ BitVec.ofBool brk ++
    BitVec.ofBool f.d ++ BitVec.ofBool f.i ++ BitVec.ofBool f.z ++ BitVec.ofBool f.c

/-- The live view of `P`: `PackP(0)` (R30, R31). -/
def liveP (f : Flags) : Byte := packP false f

/-- The six flags `UnpackP(b)` stores; bits 5 and 4 are ignored (R32). -/
def unpackP (b : Byte) : Flags where
  n := b.getLsbD 7
  v := b.getLsbD 6
  d := b.getLsbD 3
  i := b.getLsbD 2
  z := b.getLsbD 1
  c := b.getLsbD 0

end Sys2Proof.Machine
end

