-- ==== Sys2Proof/Machine/Memory.lean ====
section
/-! DEFINITION. The bus as plain storage (R60 to R68): one byte read, one byte write, and the canonical form. -/

namespace Sys2Proof.Machine

/-- The byte stored at address `k`; an unlisted address reads as `unlistedByte`. -/
def Memory.readAt : Memory → Nat → Byte
  | [], _ => unlistedByte
  | (j, w) :: rest, k => if j = k then w else Memory.readAt rest k

/-- List byte `v` at address `k`, keeping the addresses rising. -/
def Memory.insertAt : Memory → Nat → Byte → Memory
  | [], k, v => [(k, v)]
  | (j, w) :: rest, k, v =>
    if j < k then (j, w) :: Memory.insertAt rest k v
    else if j = k then (k, v) :: rest
    else (k, v) :: (j, w) :: rest

/-- Store byte `v` at address `k`; the value an unlisted address reads as is stored by removing the entry. -/
def Memory.writeAt (m : Memory) (k : Nat) (v : Byte) : Memory :=
  if v = unlistedByte then m.filter (fun cell => cell.1 != k) else m.insertAt k v

/-- `MemRead(addr, 1)` (R13, R61). -/
def Memory.read (m : Memory) (addr : Word) : Byte := m.readAt addr.toNat

/-- `MemWrite(addr, 1, v)` (R13, R61). -/
def Memory.write (m : Memory) (addr : Word) (v : Byte) : Memory := m.writeAt addr.toNat v

/-- `MemRead(addr, 2)`: the little-endian word at `addr` (R13, R63). -/
def Memory.readWord (m : Memory) (addr : Word) : Word := word (m.read (addr + 1#16)) (m.read addr)

/-- `n` bytes at ascending addresses from `addr`, wrapping at the top of the space (R25, R90). -/
def Memory.bytesFrom (m : Memory) : Word → Nat → List Byte
  | _, 0 => []
  | addr, n + 1 => m.read addr :: Memory.bytesFrom m (addr + 1#16) n

/-- Store a list of bytes at ascending addresses from `addr`, wrapping at the top of the space. -/
def Memory.store (m : Memory) : Word → List Byte → Memory
  | _, [] => m
  | addr, b :: rest => Memory.store (m.write addr b) (addr + 1#16) rest

/-- Addresses rise strictly from a lower bound, lie in the space, and no entry equals an unlisted byte. -/
def Memory.wfFrom : Memory → Nat → Bool
  | [], _ => true
  | (k, v) :: rest, low =>
    decide (low ≤ k) && decide (k < 65536) && decide (v ≠ unlistedByte) && Memory.wfFrom rest (k + 1)

/-- The canonical form of memory: equal contents are equal lists. -/
def Memory.wf (m : Memory) : Bool := m.wfFrom 0

end Sys2Proof.Machine
end

