-- ==== Sys2Proof/Machine/Ops.lean ====
section
/-! DEFINITION. The named operations: state updates, the bus, the stack (R69 to R74), trap entry and return (R216, R220). -/

namespace Sys2Proof.Machine

/-- Go on with the value of an answer; a fault or a refusal ends the step (R15). -/
def andThen {α β : Type} (r : Result α) (k : α → Result β) : Result β :=
  match r with
  | .next v => k v
  | .fault f => .fault f
  | .refused q => .refused q

/-- The value of an answer, if it is one. -/
def Result.value? {α : Type} (r : Result α) : Option α :=
  match r with
  | .next v => some v
  | .fault _ => none
  | .refused _ => none

/-- The fault of an answer, if it is one. -/
def Result.fault? {α : Type} (r : Result α) : Option Fault :=
  match r with
  | .next _ => none
  | .fault f => some f
  | .refused _ => none

/-! State updates, one per home of a value. -/

def State.setA (s : State) (b : Byte) : State := { s with a := b }
def State.setX (s : State) (b : Byte) : State := { s with x := b }
def State.setY (s : State) (b : Byte) : State := { s with y := b }
def State.setSp (s : State) (b : Byte) : State := { s with sp := b }
def State.setPc (s : State) (w : Word) : State := { s with pc := w }
def State.setFlags (s : State) (f : Flags) : State := { s with flags := f }
def State.setMem (s : State) (m : Memory) : State := { s with mem := m }

/-- Add the cycles of a successful step to `CYC` (R38). -/
def State.addCycles (s : State) (n : Nat) : State := { s with cyc := s.cyc + n }

/-- Record a fault (R41): recorded once, never replaced. -/
def State.recordFault (s : State) (f : Fault) : State := { s with fault := some (s.fault.getD f) }

/-- `MemRead(addr, 1)` on the state's bus. -/
def State.read (s : State) (addr : Word) : Byte := s.mem.read addr

/-- `MemWrite(addr, 1, v)` on the state's bus. -/
def State.write (s : State) (addr : Word) (v : Byte) : State := s.setMem (s.mem.write addr v)

/-! The vectors (R8, R217). -/

/-- The NMI vector; the block never reads it (R217, R218). -/
def nmiVector : Word := 0xFFFA#16

/-- The RESET vector, read by `start()`. -/
def resetVector : Word := 0xFFFC#16

/-- The IRQ/BRK vector, read by `BRK`. -/
def brkVector : Word := 0xFFFE#16

/-- The word a vector holds, low byte at the even address (R63 c). PRESUMED by the spec (log 9). -/
def State.vector (s : State) (v : Word) : Word := s.mem.readWord v

/-! The stack. -/

/-- `StackAddr(s)` (R69). -/
def stackAddr (sp : Byte) : Word := 0x0100#16 + zext16 sp

/-- A push with this pointer raises (R70, R72). -/
def pushBlocked (cfg : Config) (sp : Byte) : Bool := decide (cfg.stackPolicy = .raise) && decide (sp = 0x00#8)

/-- A pull with this pointer raises (R71, R72). -/
def pullBlocked (cfg : Config) (sp : Byte) : Bool := decide (cfg.stackPolicy = .raise) && decide (sp = 0xFF#8)

/-- `Push(b)` (R70): the boundary check, then the write, then the decrement. -/
def push (b : Byte) (s : State) : Result State :=
  if pushBlocked s.cfg s.sp then .fault (.stackBoundary .overflow s.sp)
  else .next ((s.write (stackAddr s.sp) b).setSp (s.sp - 1#8))

/-- `Pull()` (R71): the boundary check, then the increment, then the read. -/
def pull (s : State) : Result (Byte × State) :=
  if pullBlocked s.cfg s.sp then .fault (.stackBoundary .underflow s.sp)
  else .next (s.read (stackAddr (s.sp + 1#8)), s.setSp (s.sp + 1#8))

/-- `PushWord(w)` (R73): high byte first. -/
def pushWord (w : Word) (s : State) : Result State :=
  andThen (push (hi w) s) fun s1 => push (lo w) s1

/-- `PullWord()` (R74): low byte first. -/
def pullWord (s : State) : Result (Word × State) :=
  andThen (pull s) fun (l, s1) =>
    andThen (pull s1) fun (h, s2) => .next (word h l, s2)

/-! The trap. -/

/-- Trap entry (R216), the one exception of the block: push the resume address, high then low, then `PackP(1)`; set `f[I]`;
load `PC` from the IRQ/BRK vector. PRESUMED by the spec (log 8): that `f[I]` is set, after the status byte is pushed. -/
def takeTrap (resume : Word) (s : State) : Result State :=
  andThen (pushWord resume s) fun s1 =>
    andThen (push (packP true s1.flags) s1) fun s2 =>
      let s3 := s2.setFlags { s2.flags with i := true }
      .next (s3.setPc (s3.vector brkVector))

/-- Trap return (R220): pull the status byte into the six flags, then pull `PC`, used verbatim (R181). -/
def returnFromTrap (s : State) : Result State :=
  andThen (pull s) fun (b, s1) =>
    andThen (pullWord (s1.setFlags (unpackP b))) fun (w, s2) => .next (s2.setPc w)

end Sys2Proof.Machine
end

