-- ==== Sys2Proof/Machine/Operands.lean ====
section
/-! DEFINITION. The addressing-mode resolver (R150 to R155), in two forms: of a decoded operand, as the meanings use it, and
`resolve`, the contract of R150 over the bytes at an address. -/

namespace Sys2Proof.Machine

/-- The target of a branch at `pc0` (R154): `pc0 +16 2 +16 sext_16(rel8)`. -/
def relativeTarget (pc0 : Word) (rel8 : Byte) : Word := pc0 + 2#16 + sext16 rel8

/-- `ha`, where Indirect takes the high byte of its target from (R153). With the page wrap the low byte of the pointer wraps
and its page stays. PRESUMED by the spec (log 14): both behaviours are the spec's, the parameter decides. -/
def indirectHighAddr (cfg : Config) (ptr : Word) : Word :=
  if cfg.jmpIndPageWrap then word (hi ptr) (lo ptr + 1#8) else ptr + 1#16

/-- The word Indirect reads through its pointer (R153), low byte first. -/
def indirectTarget (ptr : Word) (s : State) : Word :=
  word (s.read (indirectHighAddr s.cfg ptr)) (s.read ptr)

/-- The two operand bytes at `pc0 +16 1` and `pc0 +16 2` as a word (R63 a, R152). -/
def operandWord (pc0 : Word) (s : State) : Word := word (s.read (pc0 + 2#16)) (s.read (pc0 + 1#16))

/-- `Resolve(mode, pc0)` (R150 to R154): how many operand bytes, and the effective address (none for Implied). It writes
nothing. -/
def resolve (m : Mode) (pc0 : Word) (s : State) : Nat × Option Word :=
  match m with
  | .implied => (0, none)
  | .absolute => (2, some (operandWord pc0 s))
  | .indirect => (2, some (indirectTarget (operandWord pc0 s) s))
  | .relative => (1, some (relativeTarget pc0 (s.read (pc0 + 1#16))))

/-- The effective address of an instruction at `s.pc` whose operand has been decoded (R150). -/
def effectiveAddress (i : Instr) (s : State) : Option Word :=
  match i with
  | .brk => none
  | .bpl r => some (relativeTarget s.pc r)
  | .jsr a => some a
  | .bmi r => some (relativeTarget s.pc r)
  | .rti => none
  | .jmpAbs a => some a
  | .bvc r => some (relativeTarget s.pc r)
  | .rts => none
  | .jmpInd p => some (indirectTarget p s)
  | .bvs r => some (relativeTarget s.pc r)
  | .bcc r => some (relativeTarget s.pc r)
  | .bcs r => some (relativeTarget s.pc r)
  | .bne r => some (relativeTarget s.pc r)
  | .beq r => some (relativeTarget s.pc r)

/-- `pc1` (R24): the address after the opcode byte and `n` operand bytes. -/
def nextPc (pc0 : Word) (n : Nat) : Word := pc0 + 1#16 + BitVec.ofNat 16 n

/-- Stage one of a step (R24, R126): `PC` advanced past the instruction before the body runs. -/
def advance (m : Mode) (s : State) : State := s.setPc (nextPc s.pc m.operandBytes)

end Sys2Proof.Machine
end

