-- ==== Sys2Proof/Machine/Branches.lean ====
section
/-! DEFINITION. The eight conditional branches (44_branches.md), over the generic branch of R190. -/

namespace Sys2Proof.Machine

/-- Branch cycles (R199): base 2, one more if taken, one more still if taken into another page. -/
def branchCycles (taken crosses : Bool) : Nat :=
  if taken then (if crosses then 4 else 3) else 2

/-- `Branch(n, v)` (R190): taken when the flag equals the sense. -/
def branch (name : FlagName) (sense : Bool) (rel8 : Byte) (s : State) : Result State :=
  let s1 := advance .relative s
  let t := relativeTarget s.pc rel8
  if s.flags.get name = sense then .next ((s1.setPc t).addCycles (branchCycles true (pageCross t s1.pc)))
  else .next (s1.addCycles (branchCycles false (pageCross t s1.pc)))

/-- `BPL` (R191): taken when `f[N]` = 0. -/
def execBpl (rel8 : Byte) (s : State) : Result State := branch .negative false rel8 s

/-- `BMI` (R192): taken when `f[N]` = 1. -/
def execBmi (rel8 : Byte) (s : State) : Result State := branch .negative true rel8 s

/-- `BVC` (R193): taken when `f[V]` = 0. -/
def execBvc (rel8 : Byte) (s : State) : Result State := branch .overflow false rel8 s

/-- `BVS` (R194): taken when `f[V]` = 1. -/
def execBvs (rel8 : Byte) (s : State) : Result State := branch .overflow true rel8 s

/-- `BCC` (R195): taken when `f[C]` = 0. -/
def execBcc (rel8 : Byte) (s : State) : Result State := branch .carry false rel8 s

/-- `BCS` (R196): taken when `f[C]` = 1. -/
def execBcs (rel8 : Byte) (s : State) : Result State := branch .carry true rel8 s

/-- `BNE` (R197): taken when `f[Z]` = 0. -/
def execBne (rel8 : Byte) (s : State) : Result State := branch .zero false rel8 s

/-- `BEQ` (R198): taken when `f[Z]` = 1. -/
def execBeq (rel8 : Byte) (s : State) : Result State := branch .zero true rel8 s

end Sys2Proof.Machine
end

