-- ==== Sys2Proof/Machine/Interrupts.lean ====
section
/-! DEFINITION. `BRK` and `RTI` (43_interrupt_instructions.md), over the shared trap entry and return. -/

namespace Sys2Proof.Machine

/-- `BRK` (R180): the trap, with the resume address `pc0 +16 2` = `pc1 +16 1`, which skips the padding byte.
PRESUMED by the spec (log 10): `PC` in the source's "PC+2" is the address of the opcode. -/
def execBrk (s : State) : Result State :=
  let s1 := advance .implied s
  andThen (takeTrap (s1.pc + 1#16) s1) fun s2 => .next (s2.addCycles s.cfg.cycBrk)

/-- `RTI` (R181). -/
def execRti (s : State) : Result State :=
  andThen (returnFromTrap (advance .implied s)) fun s1 => .next (s1.addCycles s.cfg.cycRti)

end Sys2Proof.Machine
end

