-- ==== Sys2Proof/Machine/Jumps.lean ====
section
/-! DEFINITION. `JMP` Absolute, `JMP` Indirect, `JSR`, `RTS` (42_jumps_and_subroutines.md). Each meaning is of the instruction
standing at `s.pc`, its operand bytes already read (log 27). -/

namespace Sys2Proof.Machine

/-- `JMP` Absolute (R170). -/
def execJmpAbs (addr : Word) (s : State) : Result State :=
  .next (((advance .absolute s).setPc addr).addCycles s.cfg.cycJmpAbs)

/-- `JMP` Indirect (R171): the target is read in stage one (R153). -/
def execJmpInd (ptr : Word) (s : State) : Result State :=
  .next (((advance .indirect s).setPc (indirectTarget ptr s)).addCycles s.cfg.cycJmpInd)

/-- `JSR` (R172): pushes `pc1 -16 1`, then jumps. -/
def execJsr (addr : Word) (s : State) : Result State :=
  let s1 := advance .absolute s
  andThen (pushWord (s1.pc - 1#16) s1) fun s2 => .next ((s2.setPc addr).addCycles s.cfg.cycJsr)

/-- `RTS` (R173): pulls a word and adds one. -/
def execRts (s : State) : Result State :=
  andThen (pullWord (advance .implied s)) fun (w, s1) => .next ((s1.setPc (w + 1#16)).addCycles s.cfg.cycRts)

end Sys2Proof.Machine
end

