-- ==== Sys2Proof/Machine/Dispatch.lean ====
section
/-! DEFINITION. One arm per instruction (R94). -/

namespace Sys2Proof.Machine

/-- The effect of an instruction standing at `s.pc` with its operand bytes read: stages one and two of R126. -/
def exec (i : Instr) (s : State) : Host.Outcome State Fault Refusal :=
  match i with
  | .brk => Sys2Proof.Machine.execBrk s
  | .bpl rel8 => Sys2Proof.Machine.execBpl rel8 s
  | .jsr addr => Sys2Proof.Machine.execJsr addr s
  | .bmi rel8 => Sys2Proof.Machine.execBmi rel8 s
  | .rti => Sys2Proof.Machine.execRti s
  | .jmpAbs addr => Sys2Proof.Machine.execJmpAbs addr s
  | .bvc rel8 => Sys2Proof.Machine.execBvc rel8 s
  | .rts => Sys2Proof.Machine.execRts s
  | .jmpInd ptr => Sys2Proof.Machine.execJmpInd ptr s
  | .bvs rel8 => Sys2Proof.Machine.execBvs rel8 s
  | .bcc rel8 => Sys2Proof.Machine.execBcc rel8 s
  | .bcs rel8 => Sys2Proof.Machine.execBcs rel8 s
  | .bne rel8 => Sys2Proof.Machine.execBne rel8 s
  | .beq rel8 => Sys2Proof.Machine.execBeq rel8 s

end Sys2Proof.Machine
end

