-- ==== Sys2Proof/Machine/Fetch.lean ====
section
/-! DEFINITION. Fetching an instruction (R79, R90, R126 stage 0), and the guards that stand before a step. -/

namespace Sys2Proof.Machine

/-- How many operand bytes follow an opcode byte, told from that byte alone (R90). -/
def operandCount (opcode : Byte) : Nat :=
  match lookup opcode with
  | none => 0
  | some f => f.mode.operandBytes

/-- The bytes of the instruction at `PC`: the opcode byte and exactly its operand bytes, read now (R79, R90). -/
def fetchBytes (s : State) : List Byte := s.mem.bytesFrom s.pc (1 + operandCount (s.read s.pc))

/-- The instruction at `PC`; none when the opcode byte has no descriptor in the opcode map. -/
def fetch (s : State) : Option Instr := (decode (fetchBytes s)).instr?

/-- What stops an operation before it starts: a fault already recorded (R41), else `NotStarted` (R121, R219).
DEDUCED (log 17, safe): a faulted block answers every operation with the recorded fault. -/
def guardRunning (s : State) : Option Fault :=
  match s.fault with
  | some f => some f
  | none => if s.started then none else some .notStarted

/-- Place the instruction whose table bits are `w` at `PC` (R90), with the operand bytes the table gives no bits zero. -/
def placeAtPc (s : State) (nbits w : Nat) : State :=
  { s with mem := s.mem.store s.pc (tableBytes nbits w), started := true, fault := none }

end Sys2Proof.Machine
end

