-- ==== Sys2Proof/WellFormed.lean ====
section
/-! DEFINITION. Well-formedness of what the host or an assembler hands to the block.
An instruction has no check of its own: every operand byte value is legal and no combination is reserved (R101), and the
operand types of `Instr` hold exactly those values. The two checks are of the domain of EXT_TABLE (R99) and of the target of
a branch as an assembler writes it (R102). -/

namespace Sys2Proof

/-- Every instruction is well formed (R101); written per constructor, so that a new one has to say so. -/
def Instr.wellFormed : Instr → Bool
  | .brk => true
  | .bpl _ => true
  | .jsr _ => true
  | .bmi _ => true
  | .rti => true
  | .jmpAbs _ => true
  | .bvc _ => true
  | .rts => true
  | .jmpInd _ => true
  | .bvs _ => true
  | .bcc _ => true
  | .bcs _ => true
  | .bne _ => true
  | .beq _ => true

/-- The domain of EXT_TABLE is well formed: none of the fourteen bytes of R94 and no byte twice, so that it is a partial
function (R99). -/
def extDomainWellFormed (domain : List Byte) : Bool :=
  domain.all (fun b => !opcodeBytes.contains b) && decide domain.Nodup

/-- A branch at `a` to `t` can be assembled (R102). -/
def branchReachable (a t : Word) : Bool := (branchOperand a t).isSome

end Sys2Proof
end

