-- ==== Sys2Proof/Machine/Extension.lean ====
section
/-! DEFINITION. EXT_TABLE (R9, R97 to R99): descriptors the caller supplies for opcode bytes outside the map. The table is an
argument of the step, not state, since its descriptors hold functions (log 19). -/

namespace Sys2Proof.Machine

/-- A descriptor of R99: its operand byte count and its action on the state, given `pc0`, `pc1` and the operand bytes; the
action returns the cycles it took. -/
structure ExtDescriptor where
  operandBytes : Fin 3
  action : Word → Word → List Byte → State → Result (State × Nat)

/-- EXT_TABLE: a partial function from opcode byte to descriptor, as a list of its pairs; the default is empty (R9). -/
abbrev ExtTable := List (Byte × ExtDescriptor)

/-- The domain of the table is one R99 allows. R99 says only that another must not be supplied. DESIGN CHOICE (log 32, unsafe):
no operation checks it; a table that breaks it is used as it is. -/
def ExtTable.wf (ext : ExtTable) : Bool := extDomainWellFormed (ext.map Prod.fst)

/-- The descriptor the table gives an opcode byte; of two entries for one byte the first (log 32). -/
def ExtTable.descriptor (ext : ExtTable) (opcode : Byte) : Option ExtDescriptor :=
  (ext.find? fun entry => entry.1 == opcode).map Prod.snd

/-- A step over an opcode byte outside the map: the table's descriptor in the three stages of R126, or `UnsupportedOpcode`
before anything has changed (R97, R211). `CYC` grows by the descriptor's cycles, whatever its action left there (R38, log 19). -/
def runOutsideMap (ext : ExtTable) (s : State) : Result State :=
  match ext.descriptor (s.read s.pc) with
  | none => .fault (.unsupportedOpcode (s.read s.pc) s.pc)
  | some d =>
    let n := d.operandBytes.val
    let pc1 := nextPc s.pc n
    andThen (d.action s.pc pc1 (s.mem.bytesFrom (s.pc + 1#16) n) (s.setPc pc1)) fun (t, cycles) =>
      .next { t with cyc := s.cyc + cycles }

end Sys2Proof.Machine
end

