-- ==== Sys2Proof/Machine/Step.lean ====
section
/-! DEFINITION. The step function `execute()` (R126), and how the host places one instruction to be run next. -/

namespace Sys2Proof.Machine

/-- `execute()` with an extension table: the guards, then the instruction the decoder reads at `PC`, else the table (R126).
DESIGN CHOICE (log 32): the opcode map comes first, so an entry for one of its fourteen bytes is never used. -/
def stepWith (ext : ExtTable) (s : State) : Host.Outcome State Fault Refusal :=
  match guardRunning s with
  | some f => .fault f
  | none =>
    match fetch s with
    | some i => exec i s
    | none => runOutsideMap ext s

/-- `execute()` with the default, empty extension table (R9). -/
def step (s : State) : Host.Outcome State Fault Refusal := stepWith [] s

/-- The state with one instruction placed where the next step fetches, and the block able to run (log 5). -/
def State.withFetchWord (s : State) (nbits w : Nat) : State := placeAtPc s nbits w

end Sys2Proof.Machine
end

