-- ==== Sys2Proof/Machine/Bus.lean ====
section
/-! DEFINITION. The bus accesses of a step, in order (R84): what each instruction rule lists under "bus accesses", as a
function of the state before the step (log 25). A faulting step makes the accesses before the fault and no more. -/

namespace Sys2Proof.Machine

/-- One single-byte bus access with the byte that moved (R61). -/
inductive BusAccess
  | read (addr : Word) (value : Byte)
  | write (addr : Word) (value : Byte)
deriving DecidableEq, Repr

/-- A read of the byte the bus holds now. -/
def State.readAccess (s : State) (addr : Word) : BusAccess := .read addr (s.read addr)

/-- Reads of `n` bytes at ascending addresses. -/
def readsFrom (s : State) : Word → Nat → List BusAccess
  | _, 0 => []
  | addr, n + 1 => s.readAccess addr :: readsFrom s (addr + 1#16) n

/-- The writes of a row of pushes, up to the first that faults (R70). -/
def pushAccesses (cfg : Config) : List Byte → Byte → List BusAccess
  | [], _ => []
  | b :: rest, sp =>
    if pushBlocked cfg sp then [] else .write (stackAddr sp) b :: pushAccesses cfg rest (sp - 1#8)

/-- The reads of a row of `n` pulls, up to the first that faults (R71). -/
def pullAccesses (s : State) : Nat → Byte → List BusAccess
  | 0, _ => []
  | n + 1, sp =>
    if pullBlocked s.cfg sp then []
    else s.readAccess (stackAddr (sp + 1#8)) :: pullAccesses s n (sp + 1#8)

/-- The pushes of `BRK`, and after all three of them the two vector reads (R180). -/
def brkAccesses (s : State) : List BusAccess :=
  let ret := s.pc + 2#16
  let pushes := pushAccesses s.cfg [hi ret, lo ret, packP true s.flags] s.sp
  if pushes.length = 3 then pushes ++ readsFrom s brkVector 2 else pushes

/-- The accesses of an instruction at `s.pc` after its operand bytes: pointer, stack and vector (R84). -/
def bodyAccesses (i : Instr) (s : State) : List BusAccess :=
  match i with
  | .brk => brkAccesses s
  | .bpl _ => []
  | .jsr _ => pushAccesses s.cfg [hi (s.pc + 2#16), lo (s.pc + 2#16)] s.sp
  | .bmi _ => []
  | .rti => pullAccesses s 3 s.sp
  | .jmpAbs _ => []
  | .bvc _ => []
  | .rts => pullAccesses s 2 s.sp
  | .jmpInd ptr => [s.readAccess ptr, s.readAccess (indirectHighAddr s.cfg ptr)]
  | .bvs _ => []
  | .bcc _ => []
  | .bcs _ => []
  | .bne _ => []
  | .beq _ => []

/-- The accesses of one `execute()` with the empty extension table: opcode, operands, body (R84, R126). -/
def stepAccesses (s : State) : List BusAccess :=
  match guardRunning s with
  | some _ => []
  | none =>
    match fetch s with
    | some i => readsFrom s s.pc (1 + i.mode.operandBytes) ++ bodyAccesses i s
    | none => [s.readAccess s.pc]

/-- The accesses of `start()`: the two bytes of the RESET vector, low first (R122, R242). -/
def startAccesses (s : State) : List BusAccess := readsFrom s resetVector 2

/-- Run a list of accesses on a memory: none if a read did not return the byte the memory held at that moment, else the memory
after the writes. -/
def replay : Memory → List BusAccess → Option Memory
  | m, [] => some m
  | m, .read addr v :: rest => if m.read addr = v then replay m rest else none
  | m, .write addr v :: rest => replay (m.write addr v) rest

end Sys2Proof.Machine
end

