-- ==== Sys2Proof/Machine/HostPort.lean ====
section
/-! DEFINITION. The host interface: the fourteen operations of R120 as atomic transactions between steps (R121, R135), and a
session of them. -/

namespace Sys2Proof.Machine

/-- The six register names of R127; `p` is the pseudo-register. -/
inductive RegName
  | a
  | x
  | y
  | sp
  | pc
  | p
deriving DecidableEq, Repr

/-- A register name with a value of its width (R128): an ill-typed write cannot be expressed (log 29). -/
inductive RegWrite
  | a (v : Byte)
  | x (v : Byte)
  | y (v : Byte)
  | sp (v : Byte)
  | pc (v : Word)
  | p (v : Byte)
deriving DecidableEq, Repr

/-- What `interrupt_signal` is reserved for (R39, R218); the block never produces one. -/
inductive InterruptSignal
  | nmi
  | irq
deriving DecidableEq, Repr

/-- The operations of R120. -/
inductive HostOp
  | start (inputs : StartInputs)
  | cpuPcGet
  | cpuPcSet (value : Word)
  | memorySet (address : Word) (value : Byte)
  | memoryFetch (address : Word)
  | execute
  | cpuSetRegister (write : RegWrite)
  | cpuRegister (name : RegName)
  | cpuFlag (name : FlagName)
  | cpuSetFlag (name : FlagName)
  | cpuUnsetFlag (name : FlagName)
  | cpuPushByte (value : Byte)
  | cpuPullByte
  | cpuPushWord (value : Word)
  | cpuPullWord
deriving DecidableEq, Repr

/-- What an operation returns. -/
inductive HostReply
  /-- No result. -/
  | done
  | byte (b : Byte)
  | word (w : Word)
  | bit (b : Bool)
  /-- The `(cycles, interrupt_signal)` of R125: outputs of one step, not held (R39). -/
  | stepped (cycles : Nat) (signal : Option InterruptSignal)
deriving DecidableEq, Repr

/-- `start()` (R122): the lifecycle guard, then `PC` from the RESET vector, `CYC` 0, `STARTED` 1; the registers R45 leaves
unspecified and the configuration come from the environment. DEDUCED (log 18, safe): a run at `UNDOC_LEVEL` partial or full
with no extension table is refused here (R98). DESIGN CHOICE (log 32): any table with an entry passes this check, its domain is
not looked at. -/
def hostStart (ext : ExtTable) (inp : StartInputs) (s : State) : Result State :=
  match s.fault with
  | some f => .fault f
  | none =>
    if s.started then .fault .alreadyStarted
    else if inp.cfg.undocLevel ≠ .tierNone ∧ ext.isEmpty then .refused (.undocLevelWithoutTable inp.cfg.undocLevel)
    else .next
      { s with
        a := inp.a
        x := inp.x
        y := inp.y
        sp := inp.sp
        flags := inp.flags
        cfg := inp.cfg
        pc := s.vector resetVector
        cyc := 0
        started := true }

/-- `cpu_register(name)` (R127). -/
def readRegister (s : State) : RegName → HostReply
  | .a => .byte s.a
  | .x => .byte s.x
  | .y => .byte s.y
  | .sp => .byte s.sp
  | .pc => .word s.pc
  | .p => .byte (liveP s.flags)

/-- `cpu_set_register(name, value)` (R128). -/
def writeRegister (s : State) : RegWrite → State
  | .a v => s.setA v
  | .x v => s.setX v
  | .y v => s.setY v
  | .sp v => s.setSp v
  | .pc v => s.setPc v
  | .p v => s.setFlags (unpackP v)

/-- `execute()` as the host sees it (R125): the step with its outputs. DEDUCED (log 24): the cycles are what the step added to
`CYC` (R38); the signal is always none (R39). -/
def hostExecute (ext : ExtTable) (s : State) : Result (HostReply × State) :=
  andThen (stepWith ext s) fun t => .next (.stepped (t.cyc - s.cyc) none, t)

/-- An operation of a block that is running: started, and no fault recorded (R121). -/
def whenRunning (s : State) (r : Result (HostReply × State)) : Result (HostReply × State) :=
  match guardRunning s with
  | some f => .fault f
  | none => r

/-- One operation of the host (R120 to R133). -/
def hostCall (ext : ExtTable) (op : HostOp) (s : State) : Result (HostReply × State) :=
  match op with
  | .start inp => andThen (hostStart ext inp s) fun t => .next (.done, t)
  | .cpuPcGet => whenRunning s (.next (.word s.pc, s))
  | .cpuPcSet v => whenRunning s (.next (.done, s.setPc v))
  | .memorySet addr v => whenRunning s (.next (.done, s.write addr v))
  | .memoryFetch addr => whenRunning s (.next (.byte (s.read addr), s))
  | .execute => hostExecute ext s
  | .cpuSetRegister w => whenRunning s (.next (.done, writeRegister s w))
  | .cpuRegister name => whenRunning s (.next (readRegister s name, s))
  | .cpuFlag name => whenRunning s (.next (.bit (s.flags.get name), s))
  | .cpuSetFlag name => whenRunning s (.next (.done, s.setFlags (s.flags.set name true)))
  | .cpuUnsetFlag name => whenRunning s (.next (.done, s.setFlags (s.flags.set name false)))
  | .cpuPushByte b => whenRunning s (andThen (push b s) fun t => .next (.done, t))
  | .cpuPullByte => whenRunning s (andThen (pull s) fun (b, t) => .next (.byte b, t))
  | .cpuPushWord w => whenRunning s (andThen (pushWord w s) fun t => .next (.done, t))
  | .cpuPullWord => whenRunning s (andThen (pullWord s) fun (w, t) => .next (.word w, t))

/-- What the host is told. -/
inductive HostAnswer
  | reply (r : HostReply)
  | fault (f : Fault)
  | refused (q : Refusal)
deriving DecidableEq, Repr

/-- One turn of a session: on a fault the block records it (R41, R210). DEDUCED (log 17, safe): the other fields of a faulted
block are left as they were, and no operation can look at them any more. DESIGN CHOICE (log 31, unsafe): a refusal, of `start()`
or of a descriptor's action, is no fault: the block is left as it was and the session goes on, so that a later `start()` with
another configuration succeeds. -/
def hostTurn (ext : ExtTable) (op : HostOp) (s : State) : HostAnswer × State :=
  match hostCall ext op s with
  | .next (r, t) => (.reply r, t)
  | .fault f => (.fault f, s.recordFault f)
  | .refused q => (.refused q, s)

/-- A session: the host's operations in any number and order, each seeing the effect of those before (R135). -/
def hostSession (ext : ExtTable) : List HostOp → State → List HostAnswer × State
  | [], s => ([], s)
  | op :: ops, s =>
    let (ans, t) := hostTurn ext op s
    let (rest, u) := hostSession ext ops t
    (ans :: rest, u)

end Sys2Proof.Machine
end

