-- ==== Sys2Proof/Safety.lean ====
section
/-! DEFINITION. What counts as a safe run, in the terms the statements use. -/

namespace Sys2Proof.Machine

/-- A block that can run: canonical memory, started, no fault recorded (R37, R41). Every other value of the state is legal:
any `PC` (R23), any of the 64 flag combinations (R34), any `SP` (R22). -/
def State.Running (s : State) : Prop := s.mem.wf = true ∧ s.started = true ∧ s.fault = none

/-- `k` steps from `s` all succeed. -/
def SafeFor (k : Nat) (s : State) : Prop := ∃ t, Host.Core.run Sys2Proof.core k s = .next t

/-- The end-of-run convention of R248: `PC` holds the address of a `JMP` Absolute to that same address. -/
def State.Spins (s : State) : Prop := fetch s = some (.jmpAbs s.pc)

/-- An address of the stack page (R8, R69). -/
def inStackPage (addr : Word) : Prop := 0x0100 ≤ addr.toNat ∧ addr.toNat ≤ 0x01FF

end Sys2Proof.Machine
end

