-- ==== Sys2Proof/Certificates/Slice0/Obligations.lean ====
section
/-! DEFINITION. The statements for the provers. Each docstring names the rules of spec/ it formalises; where a statement rests
on a decision of the spec or on a choice of the model, it says so and names the log entry. -/

namespace Sys2Proof.Claims

open Sys2Proof.Machine

/-- The fourteen opcode bytes of R94, written out here and not taken from the decoder's table. -/
def mapBytes : List Byte :=
  [0x00#8, 0x10#8, 0x20#8, 0x30#8, 0x40#8, 0x4C#8, 0x50#8, 0x60#8, 0x6C#8, 0x70#8, 0x90#8, 0xB0#8, 0xD0#8, 0xF0#8]

/-- The flag a branch tests, the sense it branches on, and its offset byte (R191 to R198); none for the six others. -/
def branchCase : Instr → Option (FlagName × Bool × Byte)
  | .bpl r => some (.negative, false, r)
  | .bmi r => some (.negative, true, r)
  | .bvc r => some (.overflow, false, r)
  | .bvs r => some (.overflow, true, r)
  | .bcc r => some (.carry, false, r)
  | .bcs r => some (.carry, true, r)
  | .bne r => some (.zero, false, r)
  | .beq r => some (.zero, true, r)
  | .brk => none
  | .jsr _ => none
  | .rti => none
  | .jmpAbs _ => none
  | .rts => none
  | .jmpInd _ => none

/-- What no instruction writes: `A`, `X`, `Y`, `STARTED`, the fault outcome, the configuration. -/
def KeepsRest (s t : State) : Prop :=
  t.a = s.a ∧ t.x = s.x ∧ t.y = s.y ∧ t.started = s.started ∧ t.fault = s.fault ∧ t.cfg = s.cfg

/-- Every byte of memory reads as before. -/
def KeepsMemory (s t : State) : Prop := ∀ addr, t.read addr = s.read addr

/-- The page of an address as a number (R155). -/
def page (w : Word) : Nat := w.toNat / 256

/-- Cycles of a branch by R199, with `pc1` and the target. -/
def branchCost (taken : Bool) (pc1 target : Word) : Nat :=
  if taken then (if page target = page pc1 then 3 else 4) else 2

/-- `n` pushes in a row. -/
def pushAll : List Byte → State → Result State
  | [], s => .next s
  | b :: rest, s => andThen (push b s) (pushAll rest)

/-- `n` pulls in a row, the bytes in the order pulled. -/
def pullMany : Nat → State → Result (List Byte × State)
  | 0, s => .next ([], s)
  | n + 1, s => andThen (pull s) fun (b, t) => andThen (pullMany n t) fun (bs, u) => .next (b :: bs, u)

/-- One instruction executed `n` times, wherever `PC` then is. -/
def execTimes (i : Instr) : Nat → State → Result State
  | 0, s => .next s
  | n + 1, s => andThen (exec i s) (execTimes i n)

end Sys2Proof.Claims

open Sys2Proof Sys2Proof.Machine Sys2Proof.Claims

/-! ## Encoding and decoding -/

/-- One word of each row of the opcode map decodes to its instruction, bits numbered as the table numbers them (R91, R94).
The byte values rest on the spec's decision D4 (log 6). -/
def Obligations.DecodeOpcodeMapWords : Prop :=
  decodeTableWord 8 0x00 = some .brk ∧
  decodeTableWord 16 0x8010 = some (.bpl 0x80#8) ∧
  decodeTableWord 24 0x123420 = some (.jsr 0x1234#16) ∧
  decodeTableWord 16 0x7F30 = some (.bmi 0x7F#8) ∧
  decodeTableWord 8 0x40 = some .rti ∧
  decodeTableWord 24 0xFF004C = some (.jmpAbs 0xFF00#16) ∧
  decodeTableWord 16 0x0150 = some (.bvc 0x01#8) ∧
  decodeTableWord 8 0x60 = some .rts ∧
  decodeTableWord 24 0x10FF6C = some (.jmpInd 0x10FF#16) ∧
  decodeTableWord 16 0xFE70 = some (.bvs 0xFE#8) ∧
  decodeTableWord 16 0x0090 = some (.bcc 0x00#8) ∧
  decodeTableWord 16 0xFFB0 = some (.bcs 0xFF#8) ∧
  decodeTableWord 16 0xF1D0 = some (.bne 0xF1#8) ∧
  decodeTableWord 16 0x10F0 = some (.beq 0x10#8) ∧
  decodeTableWord 8 0xEA = none

/-- Decode and encode agree, for every well-formed instruction with every operand (R90, R91, R93, R101). -/
def Obligations.DecodeEncodeIsIdentity : Prop :=
  ∀ (i : Instr), i.wellFormed = true → ∀ rest : List Byte, decode (encode i ++ rest) = .instr i rest

/-- The other direction: the bytes the decoder consumed are the bytes of the instruction, as many as its mode says. -/
def Obligations.DecodeReadsEveryByte : Prop :=
  ∀ (bs : List Byte) (i : Instr) (rest : List Byte), decode bs = .instr i rest →
    bs = encode i ++ rest ∧ bs.length = 1 + i.mode.operandBytes + rest.length

/-- The decoder is total: the fourteen bytes of R94 select an instruction, each of the 242 others is refused by name (R92, R97).
Rests on D4 and D5 (log 6). -/
def Obligations.DecoderCoversExactlyTheMap : Prop :=
  ∀ (op l h : Byte) (rest : List Byte),
    (op ∈ mapBytes → ∃ i left, decode (op :: l :: h :: rest) = .instr i left) ∧
    (op ∉ mapBytes → decode (op :: rest) = .unsupported op)

/-- The offset an assembler emits is the one byte whose branch reaches the target (R102); modulo 65,536 by log 30. -/
def Obligations.BranchOperandReachesTarget : Prop :=
  ∀ (a t : Word) (r : Byte), branchOperand a t = some r ↔ a + 2#16 + sext16 r = t

/-! ## The step -/

/-- A step runs the instruction the decoder reads at `PC` (R79, R126). -/
def Obligations.StepRunsDecodedInstruction : Prop :=
  ∀ (s : State) (i : Instr) (left : List Byte), s.started = true → s.fault = none →
    decode [s.read s.pc, s.read (s.pc + 1#16), s.read (s.pc + 2#16)] = .instr i left → step s = exec i s

/-- Every opcode byte outside the map to which the extension table gives no descriptor faults with its byte and address, at
every configuration (R97, R211); with the empty table that is every such byte, and the opcode read is the only bus access. The
choice to fault is the spec's decision D5 (log 6). -/
def Obligations.UnsupportedOpcodeStopsTheStep : Prop :=
  ∀ (ext : ExtTable) (s : State), s.started = true → s.fault = none → s.read s.pc ∉ mapBytes →
    ((∀ d, (s.read s.pc, d) ∉ ext) → stepWith ext s = .fault (.unsupportedOpcode (s.read s.pc) s.pc)) ∧
    step s = .fault (.unsupportedOpcode (s.read s.pc) s.pc) ∧
    stepAccesses s = [.read s.pc (s.read s.pc)]

/-- An extension table changes no step over a byte of the map: the map comes first, the table after it (R94, R126). Of a table R99
allows this is the spec's; of one with an entry on such a byte it is the model's choice (log 32). -/
def Obligations.ExtensionTableIsConservative : Prop :=
  ∀ (ext : ExtTable) (s : State), s.read s.pc ∈ mapBytes → stepWith ext s = step s

/-- A descriptor of an allowed extension table runs in the three stages of R126: operands read, `PC` advanced, action, cycles
added to `CYC` (R99). That the action is given the operand bytes, and that `CYC` is counted from before it, is the model's choice
(log 19). -/
def Obligations.ExtensionDescriptorRunsInStages : Prop :=
  ∀ (ext : ExtTable) (s t : State) (d : ExtDescriptor) (n c : Nat) (operands : List Byte),
    ExtTable.wf ext = true → s.started = true → s.fault = none → (s.read s.pc, d) ∈ ext →
    d.operandBytes.val = n → operands = [s.read (s.pc + 1#16), s.read (s.pc + 2#16)].take n →
    d.action s.pc (s.pc + 1#16 + BitVec.ofNat 16 n) operands { s with pc := s.pc + 1#16 + BitVec.ofNat 16 n } = .next (t, c) →
    stepWith ext s = .next { t with cyc := s.cyc + c }

/-- The bytes that decide what is fetched are the three at `PC`: nothing else of the state is read, and nothing is kept from an
earlier fetch (R42, R79). -/
def Obligations.FetchDependsOnThreeBytes : Prop :=
  ∀ s t : State, t.pc = s.pc → t.read s.pc = s.read s.pc → t.read (s.pc + 1#16) = s.read (s.pc + 1#16) →
    t.read (s.pc + 2#16) = s.read (s.pc + 2#16) → fetch t = fetch s

/-- The resolver of R150 to R154 over the bytes at `PC` gives the operand count and the effective address of the decoded
instruction, and that address is where a jump, a call or a taken branch goes. -/
def Obligations.ResolverAgreesWithExecution : Prop :=
  ∀ (s : State) (i : Instr), fetch s = some i →
    resolve i.mode s.pc s = (i.mode.operandBytes, effectiveAddress i s) ∧
    ∀ t, exec i s = .next t →
      (i.mode = .absolute ∨ i.mode = .indirect → effectiveAddress i s = some t.pc) ∧
      (∀ name sense r, branchCase i = some (name, sense, r) → s.flags.get name = sense → effectiveAddress i s = some t.pc)

/-! ## The instructions -/

/-- `JMP` Absolute (R170): `PC` is the operand; nothing else changes but `CYC`. -/
def Obligations.JmpAbsoluteOutcome : Prop :=
  ∀ (addr : Word) (s : State), ∃ t, exec (.jmpAbs addr) s = .next t ∧ t.pc = addr ∧ t.sp = s.sp ∧ t.flags = s.flags ∧
    t.cyc = s.cyc + s.cfg.cycJmpAbs ∧ KeepsRest s t ∧ KeepsMemory s t

/-- `JMP` Indirect (R153, R171): the low byte of `PC` from the pointer; the high byte from the start of the pointer's page when
the pointer ends in 0xFF and the page wrap is configured, else from the next address. The two settings are D6 (log 14). -/
def Obligations.JmpIndirectOutcome : Prop :=
  ∀ (ptr : Word) (s : State), ∃ t, exec (.jmpInd ptr) s = .next t ∧
    lo t.pc = s.read ptr ∧
    (s.cfg.jmpIndPageWrap = true ∧ ptr.toNat % 256 = 255 → hi t.pc = s.read (ptr - 0xFF#16)) ∧
    (s.cfg.jmpIndPageWrap = false ∨ ptr.toNat % 256 ≠ 255 → hi t.pc = s.read (ptr + 1#16)) ∧
    t.sp = s.sp ∧ t.flags = s.flags ∧ t.cyc = s.cyc + s.cfg.cycJmpInd ∧ KeepsRest s t ∧ KeepsMemory s t

/-- `JSR` (R172) where no push meets the boundary: the address of its last byte is pushed, high byte at the higher stack
address, and `PC` is the operand. Where the boundary lies is the spec's decision D7 (log 13). -/
def Obligations.JsrOutcome : Prop :=
  ∀ (addr : Word) (s : State), s.cfg.stackPolicy = .wrap ∨ 2 ≤ s.sp.toNat →
    ∃ t, exec (.jsr addr) s = .next t ∧ t.pc = addr ∧ t.sp = s.sp - 2#8 ∧ t.flags = s.flags ∧
      t.cyc = s.cyc + s.cfg.cycJsr ∧ KeepsRest s t ∧
      t.read (stackAddr s.sp) = hi (s.pc + 2#16) ∧ t.read (stackAddr (s.sp - 1#8)) = lo (s.pc + 2#16) ∧
      ∀ a, a ≠ stackAddr s.sp → a ≠ stackAddr (s.sp - 1#8) → t.read a = s.read a

/-- `RTS` (R173) where no pull meets the boundary: `PC` is the pulled word plus one. Where the boundary lies is the spec's decision
D7 (log 13). -/
def Obligations.RtsOutcome : Prop :=
  ∀ s : State, s.cfg.stackPolicy = .wrap ∨ s.sp.toNat ≤ 0xFD →
    ∃ t, exec .rts s = .next t ∧
      t.pc = word (s.read (stackAddr (s.sp + 2#8))) (s.read (stackAddr (s.sp + 1#8))) + 1#16 ∧
      t.sp = s.sp + 2#8 ∧ t.flags = s.flags ∧ t.cyc = s.cyc + s.cfg.cycRts ∧ KeepsRest s t ∧ KeepsMemory s t

/-- `BRK` (R180, R216) where no push meets the boundary: `pc0` + 2 and `PackP(1)` are pushed, `I` is set, `PC` is the word of
the IRQ/BRK vector. Rests on the spec's decisions D2 and D3 (log 7), D7 (log 13), D8 (log 8), D9 (log 9), D24 (log 10). -/
def Obligations.BrkOutcome : Prop :=
  ∀ s : State, s.cfg.stackPolicy = .wrap ∨ 3 ≤ s.sp.toNat →
    ∃ t, exec .brk s = .next t ∧ t.pc = word (s.read 0xFFFF#16) (s.read 0xFFFE#16) ∧ t.sp = s.sp - 3#8 ∧
      t.flags = { s.flags with i := true } ∧ t.cyc = s.cyc + s.cfg.cycBrk ∧ KeepsRest s t ∧
      t.read (stackAddr s.sp) = hi (s.pc + 2#16) ∧ t.read (stackAddr (s.sp - 1#8)) = lo (s.pc + 2#16) ∧
      t.read (stackAddr (s.sp - 2#8)) = packP true s.flags ∧
      ∀ a, a ≠ stackAddr s.sp → a ≠ stackAddr (s.sp - 1#8) → a ≠ stackAddr (s.sp - 2#8) → t.read a = s.read a

/-- `RTI` (R181, R220) where no pull meets the boundary: the six flags are bits 7, 6, 3, 2, 1, 0 of the first byte pulled, `PC`
is the word pulled next, used verbatim. The bit places are the spec's decision D2 (log 7), the boundary is D7 (log 13). -/
def Obligations.RtiOutcome : Prop :=
  ∀ s : State, s.cfg.stackPolicy = .wrap ∨ s.sp.toNat ≤ 0xFC →
    ∃ t, exec .rti s = .next t ∧
      t.pc = word (s.read (stackAddr (s.sp + 3#8))) (s.read (stackAddr (s.sp + 2#8))) ∧ t.sp = s.sp + 3#8 ∧
      (let b := s.read (stackAddr (s.sp + 1#8))
       t.flags.n = b.getLsbD 7 ∧ t.flags.v = b.getLsbD 6 ∧ t.flags.d = b.getLsbD 3 ∧ t.flags.i = b.getLsbD 2 ∧
       t.flags.z = b.getLsbD 1 ∧ t.flags.c = b.getLsbD 0) ∧
      t.cyc = s.cyc + s.cfg.cycRti ∧ KeepsRest s t ∧ KeepsMemory s t

/-- The eight branches (R190 to R200): `PC` is `pc0` + 2 + the sign-extended offset when the tested flag has the sense, else
`pc0` + 2; 2, 3 or 4 cycles; nothing else changes. -/
def Obligations.BranchOutcome : Prop :=
  ∀ (i : Instr) (name : FlagName) (sense : Bool) (r : Byte) (s : State), branchCase i = some (name, sense, r) →
    ∃ t, exec i s = .next t ∧
      (s.flags.get name = sense →
        t.pc.toInt = (s.pc.toInt + 2 + r.toInt).bmod 65536 ∧ t.cyc = s.cyc + branchCost true (s.pc + 2#16) t.pc) ∧
      (s.flags.get name ≠ sense → t.pc = s.pc + 2#16 ∧ t.cyc = s.cyc + 2) ∧
      t.sp = s.sp ∧ t.flags = s.flags ∧ KeepsRest s t ∧ KeepsMemory s t

/-- The corner offsets of a taken branch (R201 a to f), with the cycles it gives for each but (c). -/
def Obligations.BranchCornerCases : Prop :=
  ∀ (i : Instr) (name : FlagName) (sense : Bool) (r : Byte) (s t : State), branchCase i = some (name, sense, r) →
    s.flags.get name = sense → exec i s = .next t →
    (r = 0x00#8 → t.pc = s.pc + 2#16 ∧ t.cyc = s.cyc + 3) ∧
    (r = 0xFE#8 → t.pc = s.pc ∧ t.cyc = s.cyc + (if s.pc.toNat % 256 = 0xFE ∨ s.pc.toNat % 256 = 0xFF then 4 else 3)) ∧
    (r = 0xFF#8 → t.pc = s.pc + 1#16) ∧
    (r = 0x80#8 → t.pc = s.pc + 2#16 - 128#16 ∧
      t.cyc = s.cyc + (if (s.pc + 2#16).toNat % 256 < 0x80 then 4 else 3)) ∧
    (r = 0x7F#8 → t.pc = s.pc + 2#16 + 127#16 ∧
      t.cyc = s.cyc + (if 0x81 ≤ (s.pc + 2#16).toNat % 256 then 4 else 3)) ∧
    (s.pc.toNat % 256 = 0xFE ∧ r.toNat < 0x80 → t.cyc = s.cyc + 3)

/-! ## Faults -/

/-- Under the raise policy the four stack instructions fault exactly at the pointers R212 lists, with the pointer at which the
push or pull was tried. The trigger is D7 (log 13). -/
def Obligations.StackBoundaryFaultsExactly : Prop :=
  ∀ s : State, s.cfg.stackPolicy = .raise →
    (∀ addr f, exec (.jsr addr) s = .fault f ↔
      (s.sp = 0x00#8 ∨ s.sp = 0x01#8) ∧ f = .stackBoundary .overflow 0x00#8) ∧
    (∀ f, exec .brk s = .fault f ↔
      (s.sp = 0x00#8 ∨ s.sp = 0x01#8 ∨ s.sp = 0x02#8) ∧ f = .stackBoundary .overflow 0x00#8) ∧
    (∀ f, exec .rts s = .fault f ↔
      (s.sp = 0xFF#8 ∨ s.sp = 0xFE#8) ∧ f = .stackBoundary .underflow 0xFF#8) ∧
    (∀ f, exec .rti s = .fault f ↔
      (s.sp = 0xFF#8 ∨ s.sp = 0xFE#8 ∨ s.sp = 0xFD#8) ∧ f = .stackBoundary .underflow 0xFF#8)

/-- Under the wrap policy every instruction completes in every state (R72, R212); one policy for both directions is the spec's
decision D7 (log 13). -/
def Obligations.WrapPolicyNeverFaults : Prop :=
  ∀ (i : Instr) (s : State), s.cfg.stackPolicy = .wrap → ∃ t, exec i s = .next t

/-- No instruction refuses, and the only fault of an instruction is StackBoundary, of the four that use the stack, under the
raise policy (R215, R212). The policy, the kinds and the pointers 0x00 and 0xFF rest on R72, the spec's decision D7 (log 13). -/
def Obligations.OnlyStackBoundaryFaults : Prop :=
  ∀ (i : Instr) (s : State), (∀ q, exec i s ≠ .refused q) ∧
    ∀ f, exec i s = .fault f →
      s.cfg.stackPolicy = .raise ∧
      (((i = .brk ∨ ∃ addr, i = .jsr addr) ∧ f = .stackBoundary .overflow 0x00#8) ∨
        ((i = .rti ∨ i = .rts) ∧ f = .stackBoundary .underflow 0xFF#8))

/-- Which fault a step of a running block ends in, by its opcode byte (R219). The opcode bytes and the fault outside them are the
spec's decisions D4 and D5 (log 6), the pointers and the one policy D7 (log 13). -/
def Obligations.StepFaultClassification : Prop :=
  ∀ (s : State) (f : Fault), s.Running → step s = .fault f →
    (s.read s.pc ∉ mapBytes ∧ f = .unsupportedOpcode (s.read s.pc) s.pc) ∨
    (s.cfg.stackPolicy = .raise ∧ (s.read s.pc = 0x00#8 ∨ s.read s.pc = 0x20#8) ∧ s.sp.toNat ≤ 2 ∧
      f = .stackBoundary .overflow 0x00#8) ∨
    (s.cfg.stackPolicy = .raise ∧ (s.read s.pc = 0x40#8 ∨ s.read s.pc = 0x60#8) ∧ 0xFD ≤ s.sp.toNat ∧
      f = .stackBoundary .underflow 0xFF#8)

/-! ## Whole-machine rules -/

/-- No instruction writes `A`, `X` or `Y`, and none reads them: with other values in them it does the same (R21). -/
def Obligations.GeneralRegistersNeitherReadNorWritten : Prop :=
  ∀ (i : Instr) (s : State) (a x y : Byte),
    exec i { s with a := a, x := x, y := y } = andThen (exec i s) (fun t => .next { t with a := a, x := x, y := y }) ∧
    ∀ t, exec i s = .next t → t.a = s.a ∧ t.x = s.x ∧ t.y = s.y

/-- Who writes flags (R28): `RTI` all six, from the byte it pulls; `BRK` only `I`, which it sets (D8, log 8); no other. That the
live byte then is the pulled one with bit 5 set and bit 4 clear (R33) is the spec's decisions D2 and D3 (log 7). -/
def Obligations.FlagsWrittenOnlyByBrkAndRti : Prop :=
  ∀ (i : Instr) (s t : State), exec i s = .next t →
    (i ≠ .brk → i ≠ .rti → t.flags = s.flags) ∧
    (i = .brk → t.flags = { s.flags with i := true }) ∧
    (i = .rti → liveP t.flags = (s.read (stackAddr (s.sp + 1#8)) &&& 0xCF#8) ||| 0x20#8)

/-- Who writes memory (R68, R157): only `JSR` and `BRK`, and only the stack page. -/
def Obligations.MemoryWrittenOnlyInStackPage : Prop :=
  ∀ (i : Instr) (s t : State), exec i s = .next t →
    (∀ addr, ¬ inStackPage addr → t.read addr = s.read addr) ∧
    (i ≠ .brk → (∀ target, i ≠ .jsr target) → t.mem = s.mem)

/-- Two configuration inputs decide nothing about a step: DECIMAL_SUPPORT is read by no rule (R9, R33), and the fourteen
instructions run alike at every UNDOC_LEVEL (R98). The first is the spec's decision D18 (log 28), the second D5 (log 18). -/
def Obligations.InertConfiguration : Prop :=
  ∀ (i : Instr) (s : State) (level : UndocLevel) (decimal : Bool),
    exec i { s with cfg := { s.cfg with undocLevel := level, decimalSupport := decimal } } =
      andThen (exec i s) (fun t => .next { t with cfg := { s.cfg with undocLevel := level, decimalSupport := decimal } })

/-- The invariant of a running block: every step keeps memory canonical, the block started and free of a recorded fault, and
the configuration as it was sampled (R37, R41, R120). The canonical form is the model's own (log 26). -/
def Obligations.StepKeepsRunning : Prop :=
  ∀ s t : State, s.Running → step s = .next t → t.Running ∧ t.cfg = s.cfg

/-- The invariant holds after reset, which is the block after `start()` on a memory that lists nothing (the model's choice: log 4,
5, 26). -/
def Obligations.ResetIsRunning : Prop := State.reset.Running

/-- A self-jump keeps the machine where it is for ever: each step changes only `CYC` (R248, the spec's decision D22). -/
def Obligations.SpinChangesOnlyCyc : Prop :=
  ∀ s : State, s.Running → s.Spins → ∀ k : Nat,
    SafeFor k s ∧ ∀ t, Host.Core.run core k s = .next t → t = { s with cyc := s.cyc + k * s.cfg.cycJmpAbs }

/-! ## The stack -/

/-- `Push(b)` (R69, R70): the boundary check first, then the write at 0x0100 + `SP`, then the decrement; it is also the host
operation. That a push faults at 0x00 under raise is the spec's decision D7 (R72, log 13). -/
def Obligations.PushOutcome : Prop :=
  ∀ (b : Byte) (s : State),
    (stackAddr s.sp).toNat = 0x0100 + s.sp.toNat ∧
    (s.cfg.stackPolicy = .raise ∧ s.sp = 0x00#8 → push b s = .fault (.stackBoundary .overflow 0x00#8)) ∧
    (¬ (s.cfg.stackPolicy = .raise ∧ s.sp = 0x00#8) →
      ∃ t, push b s = .next t ∧ t.sp = s.sp - 1#8 ∧ t.read (stackAddr s.sp) = b ∧
        (∀ a, a ≠ stackAddr s.sp → t.read a = s.read a) ∧ t.pc = s.pc ∧ t.flags = s.flags ∧ t.cyc = s.cyc ∧ KeepsRest s t) ∧
    (∀ ext, s.Running → hostCall ext (.cpuPushByte b) s = andThen (push b s) (fun t => .next (.done, t)))

/-- `Pull()` (R71): the boundary check first, then the increment, then the read; memory is not changed. That a pull faults at
0xFF under raise is the spec's decision D7 (R72, log 13). -/
def Obligations.PullOutcome : Prop :=
  ∀ s : State,
    (s.cfg.stackPolicy = .raise ∧ s.sp = 0xFF#8 → pull s = .fault (.stackBoundary .underflow 0xFF#8)) ∧
    (¬ (s.cfg.stackPolicy = .raise ∧ s.sp = 0xFF#8) →
      ∃ b t, pull s = .next (b, t) ∧ t.sp = s.sp + 1#8 ∧ b = s.read (stackAddr (s.sp + 1#8)) ∧
        t.mem = s.mem ∧ t.pc = s.pc ∧ t.flags = s.flags ∧ t.cyc = s.cyc ∧ KeepsRest s t) ∧
    (∀ ext, s.Running → hostCall ext .cpuPullByte s = andThen (pull s) (fun r => .next (.byte r.1, r.2)))

/-- `PushWord(w)` (R73): where neither push meets the boundary, the high byte at the pointer, the low byte one below. Where
one does (pointer 0x00 or 0x01 under raise), the fault of that push (R70, R72), which is the spec's decision D7 (log 13). -/
def Obligations.PushWordOutcome : Prop :=
  ∀ (w : Word) (s : State),
    (s.cfg.stackPolicy = .wrap ∨ 2 ≤ s.sp.toNat →
      ∃ t, pushWord w s = .next t ∧ t.sp = s.sp - 2#8 ∧ t.read (stackAddr s.sp) = hi w ∧
        t.read (stackAddr (s.sp - 1#8)) = lo w ∧
        (∀ a, a ≠ stackAddr s.sp → a ≠ stackAddr (s.sp - 1#8) → t.read a = s.read a) ∧
        t.pc = s.pc ∧ t.flags = s.flags ∧ t.cyc = s.cyc ∧ KeepsRest s t) ∧
    (s.cfg.stackPolicy = .raise ∧ s.sp.toNat < 2 → pushWord w s = .fault (.stackBoundary .overflow 0x00#8)) ∧
    (∀ ext, s.Running → hostCall ext (.cpuPushWord w) s = andThen (pushWord w s) (fun t => .next (.done, t)))

/-- `PullWord()` (R74): where neither pull meets the boundary, low byte first, then the high byte. Where one does (pointer 0xFF
or 0xFE under raise), the fault of that pull (R71, R72), which is the spec's decision D7 (log 13). -/
def Obligations.PullWordOutcome : Prop :=
  ∀ s : State,
    (s.cfg.stackPolicy = .wrap ∨ s.sp.toNat ≤ 0xFD →
      ∃ w t, pullWord s = .next (w, t) ∧ t.sp = s.sp + 2#8 ∧
        w.toNat = (s.read (stackAddr (s.sp + 1#8))).toNat + 256 * (s.read (stackAddr (s.sp + 2#8))).toNat ∧
        t.mem = s.mem ∧ t.pc = s.pc ∧ t.flags = s.flags ∧ t.cyc = s.cyc ∧ KeepsRest s t) ∧
    (s.cfg.stackPolicy = .raise ∧ 0xFE ≤ s.sp.toNat → pullWord s = .fault (.stackBoundary .underflow 0xFF#8)) ∧
    (∀ ext, s.Running → hostCall ext .cpuPullWord s = andThen (pullWord s) (fun r => .next (.word r.1, r.2)))

/-- A word pushed is the word pulled, and `SP` is restored (R75 b), for every pointer under wrap and 0x02 to 0xFF under
raise, where the boundary is the spec's decision D7 (log 13). -/
def Obligations.WordRoundTrip : Prop :=
  ∀ (w : Word) (s : State), s.cfg.stackPolicy = .wrap ∨ 2 ≤ s.sp.toNat →
    ∃ t u, pushWord w s = .next t ∧ pullWord t = .next (w, u) ∧ u.sp = s.sp

/-- N pushes followed by N pulls restore `SP` and give the bytes in reverse order (R75 a): N from 0 to 256 under wrap, and
under raise every such sequence of pushes that raises no fault (the boundary is the spec's decision D7, log 13). -/
def Obligations.PushesThenPullsReverse : Prop :=
  ∀ (bs : List Byte) (s t : State), bs.length ≤ 256 → pushAll bs s = .next t →
    ∃ u, pullMany bs.length t = .next (bs.reverse, u) ∧ u.sp = s.sp ∧ u.mem = t.mem

/-- A stack word that straddles the wrap keeps the stack page (R76); where the pointer wraps is the spec's decision D7 (log 13). -/
def Obligations.StackWordStraddleStaysInPage : Prop :=
  ∀ (w : Word) (s : State), s.cfg.stackPolicy = .wrap → s.sp = 0x00#8 →
    ∃ t, pushWord w s = .next t ∧ t.read 0x0100#16 = hi w ∧ t.read 0x01FF#16 = lo w ∧
      ∀ a, a ≠ 0x0100#16 → a ≠ 0x01FF#16 → t.read a = s.read a

/-- Call and return (R174): after a step over `JSR target` and a step over the `RTS` that stands at the target after the
pushes, `PC` is three bytes after the `JSR`, and `SP` and the flags are as before. The opcode byte is the spec's decision D4
(log 6), and under raise the boundary is D7 (log 13). -/
def Obligations.CallReturnRoundTrip : Prop :=
  ∀ (s t : State) (target : Word), s.Running → fetch s = some (.jsr target) → step s = .next t → t.read target = 0x60#8 →
    ∃ u, step t = .next u ∧ u.pc = s.pc + 3#16 ∧ u.sp = s.sp ∧ u.flags = s.flags

/-- Trap and return (R182): after a step over `BRK` and a step over the `RTI` at the vector's target, `PC` is `pc0` + 2, and
`SP` and all six flags are as before. The reading of "pre-interrupt PC" is the spec's conflict C2; it rests on the decisions D3
(log 7), D4 (log 6), D24 (log 10), and under raise D7 (log 13). -/
def Obligations.TrapReturnRoundTrip : Prop :=
  ∀ s t : State, s.Running → s.read s.pc = 0x00#8 → step s = .next t → t.read t.pc = 0x40#8 →
    ∃ u, step t = .next u ∧ u.pc = s.pc + 2#16 ∧ u.sp = s.sp ∧ u.flags = s.flags

/-- Nesting (R182, R221): n traps, at most the 85 that the 256-byte stack page holds, are unwound by n returns. That the first
resumes at `pc0` + 2 is the spec's decision D24 (log 10), that the flags come back D3 (log 7), the boundary D7 (log 13). -/
def Obligations.NestedTrapsUnwind : Prop :=
  ∀ (n : Nat) (s t : State), 0 < n → n ≤ 85 → execTimes .brk n s = .next t →
    ∃ u, execTimes .rti n t = .next u ∧ u.pc = s.pc + 2#16 ∧ u.sp = s.sp ∧ u.flags = s.flags ∧ u.mem = t.mem

/-! ## The status byte -/

/-- `PackP` as the sum of R30; bit 5 reads 1, bit 4 is the break argument (R31). The places are D2, D3 (log 7). -/
def Obligations.PackPLayout : Prop :=
  ∀ (brk : Bool) (f : Flags), (packP brk f).toNat =
    128 * f.n.toNat + 64 * f.v.toNat + 32 + 16 * brk.toNat + 8 * f.d.toNat + 4 * f.i.toNat + 2 * f.z.toNat + f.c.toNat

/-- The round trip of R33: unpacking what was packed gives the flags back, for either break bit; and the live view of an
unpacked byte is that byte with bit 5 set and bit 4 clear, which is the spec's decisions D2 and D3 (R31, log 7). -/
def Obligations.FlagsRoundTrip : Prop :=
  (∀ (brk : Bool) (f : Flags), unpackP (packP brk f) = f) ∧
  (∀ b : Byte, liveP (unpackP b) = (b &&& 0xCF#8) ||| 0x20#8)

/-- `PageCross` compares 256-byte pages (R155); a taken branch is judged between its target and the following instruction, not
its own address, and the result decides one cycle and nothing else of the next state. -/
def Obligations.PageCrossComparesPages : Prop :=
  (∀ a b : Word, pageCross a b = true ↔ a.toNat / 256 ≠ b.toNat / 256) ∧
  (∀ (i : Instr) (name : FlagName) (sense : Bool) (r : Byte) (s : State) (target : Word),
    branchCase i = some (name, sense, r) → s.flags.get name = sense → target = s.pc + 2#16 + sext16 r →
      exec i s = .next
        { s with pc := target, cyc := if pageCross target (s.pc + 2#16) = true then s.cyc + 3 + 1 else s.cyc + 3 })

/-! ## Reset and the host interface -/

/-- `start()` (R43, R44, R122, R240 to R242): `PC` from the RESET vector, `STARTED` 1, `CYC` 0, memory untouched, the two vector
bytes the only accesses. The registers and the configuration are what the environment gives, any value (R45, D10). Byte order D9
(log 9). At UNDOC_LEVEL partial or full the premise is a table with an entry (R98): that `start()` is where this is asked is the
model's reading (log 18), that any entry will do, of a table R99 allows or not, is the model's choice (log 32). -/
def Obligations.StartOutcome : Prop :=
  ∀ (ext : ExtTable) (inp : StartInputs) (s : State), s.started = false → s.fault = none →
    (inp.cfg.undocLevel = .tierNone ∨ ext.isEmpty = false) →
    ∃ t, hostCall ext (.start inp) s = .next (.done, t) ∧ t.pc = word (s.read 0xFFFD#16) (s.read 0xFFFC#16) ∧
      t.started = true ∧ t.cyc = 0 ∧ t.fault = none ∧ t.mem = s.mem ∧ t.cfg = inp.cfg ∧
      t.a = inp.a ∧ t.x = inp.x ∧ t.y = inp.y ∧ t.sp = inp.sp ∧ t.flags = inp.flags ∧
      startAccesses s = [.read 0xFFFC#16 (s.read 0xFFFC#16), .read 0xFFFD#16 (s.read 0xFFFD#16)]

/-- The reset state is what `start()` makes of a block that has never run, on the model's chosen register values, configuration
and memory (the model's choice: log 2, 3, 4, 5). -/
def Obligations.ResetIsStartOfPowerOn : Prop :=
  hostCall [] (.start StartInputs.standard) State.powerOn = .next (.done, State.reset)

/-- The lifecycle (R37, R121, R213, R219): a second `start()` and every other operation before `start()` fault by name, before
anything else. Refusing both is D11 (log 20). -/
def Obligations.LifecycleFaults : Prop :=
  ∀ (ext : ExtTable) (s : State), s.fault = none →
    (s.started = true → ∀ inp, hostCall ext (.start inp) s = .fault .alreadyStarted) ∧
    (s.started = false → ∀ op, (∀ inp, op ≠ .start inp) → hostCall ext op s = .fault .notStarted) ∧
    (s.started = false → stepWith ext s = .fault .notStarted)

/-- A run at UNDOC_LEVEL partial or full without an extension table is refused (R98). That `start()` is the place is the
model's reading (log 18). -/
def Obligations.UndocLevelRefusedAtStart : Prop :=
  ∀ (inp : StartInputs) (s : State), s.started = false → s.fault = none → inp.cfg.undocLevel ≠ .tierNone →
    hostCall [] (.start inp) s = .refused (.undocLevelWithoutTable inp.cfg.undocLevel)

/-- A fault is terminal (R41, R210): it is recorded, never cleared, and every later operation reports it and changes nothing.
That later operations report it again is the model's reading (log 17). -/
def Obligations.FaultIsFinal : Prop :=
  ∀ (ext : ExtTable) (op : HostOp) (s t : State) (f : Fault), hostTurn ext op s = (.fault f, t) →
    t.fault = some f ∧ ∀ (ext' : ExtTable) (op' : HostOp), hostTurn ext' op' t = (.fault f, t)

/-- `cpu_pc` (R123): set and get, the same two operations as on the register `PC`; no other state changes. -/
def Obligations.PcAccess : Prop :=
  ∀ (ext : ExtTable) (v : Word) (s : State), s.Running →
    (∃ t, hostCall ext (.cpuPcSet v) s = .next (.done, t) ∧ t = { s with pc := v } ∧
      hostCall ext .cpuPcGet t = .next (.word v, t)) ∧
    hostCall ext .cpuPcGet s = .next (.word s.pc, s) ∧
    hostCall ext (.cpuSetRegister (.pc v)) s = hostCall ext (.cpuPcSet v) s ∧
    hostCall ext (.cpuRegister .pc) s = hostCall ext .cpuPcGet s

/-- `memory_set` and `memory_fetch` (R124): one byte each; a fetch gives the latest byte set; no register or flag changes. -/
def Obligations.MemoryAccess : Prop :=
  ∀ (ext : ExtTable) (addr : Word) (v : Byte) (s : State), s.Running →
    ∃ t, hostCall ext (.memorySet addr v) s = .next (.done, t) ∧
      hostCall ext (.memoryFetch addr) t = .next (.byte v, t) ∧
      (∀ other, other ≠ addr → hostCall ext (.memoryFetch other) t = .next (.byte (s.read other), t)) ∧
      hostCall ext (.memoryFetch addr) s = .next (.byte (s.read addr), s) ∧
      t.pc = s.pc ∧ t.sp = s.sp ∧ t.flags = s.flags ∧ t.cyc = s.cyc ∧ KeepsRest s t

/-- `cpu_register` (R127): the five registers, and `P` computed from the flags; no state change. -/
def Obligations.RegisterReads : Prop :=
  ∀ (ext : ExtTable) (s : State), s.Running →
    hostCall ext (.cpuRegister .a) s = .next (.byte s.a, s) ∧
    hostCall ext (.cpuRegister .x) s = .next (.byte s.x, s) ∧
    hostCall ext (.cpuRegister .y) s = .next (.byte s.y, s) ∧
    hostCall ext (.cpuRegister .sp) s = .next (.byte s.sp, s) ∧
    hostCall ext (.cpuRegister .pc) s = .next (.word s.pc, s) ∧
    hostCall ext (.cpuRegister .p) s = .next (.byte (packP false s.flags), s)

/-- `cpu_set_register` (R128): each register by name, `SP` at every value with no fault, and `P` decomposed into the six flags
with bits 5 and 4 ignored (D3, log 7). -/
def Obligations.RegisterWrites : Prop :=
  ∀ (ext : ExtTable) (b : Byte) (s : State), s.Running →
    hostCall ext (.cpuSetRegister (.a b)) s = .next (.done, { s with a := b }) ∧
    hostCall ext (.cpuSetRegister (.x b)) s = .next (.done, { s with x := b }) ∧
    hostCall ext (.cpuSetRegister (.y b)) s = .next (.done, { s with y := b }) ∧
    hostCall ext (.cpuSetRegister (.sp b)) s = .next (.done, { s with sp := b }) ∧
    ∃ t, hostCall ext (.cpuSetRegister (.p b)) s = .next (.done, t) ∧ t = { s with flags := t.flags } ∧
      hostCall ext (.cpuRegister .p) t = .next (.byte ((b &&& 0xCF#8) ||| 0x20#8), t)

/-- The flag accessors (R129 to R131): each name reads its flag; set and clear change one of the six flags and no other; the
break name reads 0 and cannot be changed (D3, log 7). -/
def Obligations.FlagAccess : Prop :=
  ∀ (ext : ExtTable) (name : FlagName) (s : State), s.Running →
    hostCall ext (.cpuFlag .carry) s = .next (.bit s.flags.c, s) ∧
    hostCall ext (.cpuFlag .zero) s = .next (.bit s.flags.z, s) ∧
    hostCall ext (.cpuFlag .interruptDisable) s = .next (.bit s.flags.i, s) ∧
    hostCall ext (.cpuFlag .decimal) s = .next (.bit s.flags.d, s) ∧
    hostCall ext (.cpuFlag .overflow) s = .next (.bit s.flags.v, s) ∧
    hostCall ext (.cpuFlag .negative) s = .next (.bit s.flags.n, s) ∧
    hostCall ext (.cpuFlag .brk) s = .next (.bit false, s) ∧
    hostCall ext (.cpuSetFlag .brk) s = .next (.done, s) ∧
    hostCall ext (.cpuUnsetFlag .brk) s = .next (.done, s) ∧
    ∃ t u, hostCall ext (.cpuSetFlag name) s = .next (.done, t) ∧ hostCall ext (.cpuUnsetFlag name) s = .next (.done, u) ∧
      t = { s with flags := t.flags } ∧ u = { s with flags := u.flags } ∧
      (name ≠ .brk → hostCall ext (.cpuFlag name) t = .next (.bit true, t)) ∧
      hostCall ext (.cpuFlag name) u = .next (.bit false, u) ∧
      ∀ other, other ≠ name → t.flags.get other = s.flags.get other ∧ u.flags.get other = s.flags.get other

/-- The host stack operations are the primitives of R70 to R74, meet the boundary policy and report no cycles (R132, R133);
what was pushed is pulled again, from a pointer at which no boundary is met. The fault pointers 0x00 and 0xFF (R72) and that the
policy binds host operations are the spec's decisions D7 and D25 (log 13). -/
def Obligations.HostStackOps : Prop :=
  ∀ (ext : ExtTable) (b : Byte) (w : Word) (s : State), s.Running →
    hostCall ext (.cpuPushByte b) s = andThen (push b s) (fun t => .next (.done, t)) ∧
    hostCall ext .cpuPullByte s = andThen (pull s) (fun r => .next (.byte r.1, r.2)) ∧
    hostCall ext (.cpuPushWord w) s = andThen (pushWord w s) (fun t => .next (.done, t)) ∧
    hostCall ext .cpuPullWord s = andThen (pullWord s) (fun r => .next (.word r.1, r.2)) ∧
    (s.cfg.stackPolicy = .raise → s.sp = 0x00#8 →
      hostCall ext (.cpuPushByte b) s = .fault (.stackBoundary .overflow 0x00#8)) ∧
    (s.cfg.stackPolicy = .raise → s.sp = 0xFF#8 →
      hostCall ext .cpuPullByte s = .fault (.stackBoundary .underflow 0xFF#8)) ∧
    (s.cfg.stackPolicy = .wrap ∨ 2 ≤ s.sp.toNat →
     (∃ t u, hostCall ext (.cpuPushByte b) s = .next (.done, t) ∧ t.sp = s.sp - 1#8 ∧ t.read (stackAddr s.sp) = b ∧
      hostCall ext .cpuPullByte t = .next (.byte b, u) ∧ t.cyc = s.cyc ∧ u.sp = s.sp ∧ u.cyc = s.cyc) ∧
     (∃ t u, hostCall ext (.cpuPushWord w) s = .next (.done, t) ∧ t.sp = s.sp - 2#8 ∧
      t.read (stackAddr s.sp) = hi w ∧ t.read (stackAddr (s.sp - 1#8)) = lo w ∧
      hostCall ext .cpuPullWord t = .next (.word w, u) ∧ t.cyc = s.cyc ∧ u.sp = s.sp ∧ u.cyc = s.cyc))

/-- `execute()` (R38, R39, R125, R251): it is the step; it reports the cycles that were added to `CYC`, and no interrupt signal;
a step that faults reports the fault; every other operation but `start()` leaves `CYC` alone. The counter, the empty signal and
the free host operations are the spec's decisions D13 (log 16), D14 (log 21) and D25; that the report is computed from `CYC` is the
model's (log 24). -/
def Obligations.HostExecuteReports : Prop :=
  (∀ (ext : ExtTable) (s t : State), stepWith ext s = .next t →
    ∃ c, hostCall ext .execute s = .next (.stepped c none, t) ∧ t.cyc = s.cyc + c) ∧
  (∀ (ext : ExtTable) (s : State) (f : Fault), stepWith ext s = .fault f → hostCall ext .execute s = .fault f) ∧
  (∀ (ext : ExtTable) (s : State) (op : HostOp) (r : HostReply) (t : State), hostCall ext op s = .next (r, t) →
    op ≠ .execute → (∀ inp, op ≠ .start inp) → t.cyc = s.cyc)

/-- Every operation of the host, the step among them, keeps the invariant of a running block, with the default, empty
extension table (R121, R135). -/
def Obligations.HostOpsKeepRunning : Prop :=
  ∀ (op : HostOp) (s t : State) (r : HostReply), s.Running → hostCall [] op s = .next (r, t) → t.Running ∧ t.cfg = s.cfg

/-! ## Bus accesses -/

/-- The listed accesses are those of the step (R84): replayed on the memory before it, every read returns what the memory held
at that moment, and the writes give the memory after it. For a step that faults the reads still agree. The order is the spec's
decision D15 (log 11); that the list is a function of the state is the model's reading (log 25). -/
def Obligations.BusAccessesReplay : Prop :=
  ∀ s : State, s.Running →
    (∃ m, replay s.mem (stepAccesses s) = some m) ∧
    ∀ t, step s = .next t → replay s.mem (stepAccesses s) = some t.mem

/-- The access sequence of each instruction, in order (R170 to R173, R180, R181, R190): of the branches and the jumps in every
running block, of the four stack instructions where no push or pull meets the boundary. Rests on the spec's decisions D15 (log 11)
for the order within an instruction, D6 (log 14) for the pointer, D7 (log 13) for the boundary, and in the `BRK` clause D24 (log 10)
for the word pushed, D2 and D3 (log 7) for the status byte, D9 (log 9) for the vector. -/
def Obligations.BusSequences : Prop :=
  ∀ (s : State) (i : Instr), s.Running → fetch s = some i →
    let rd := fun a : Word => BusAccess.read a (s.read a)
    let ret := s.pc + 2#16
    (∀ x, branchCase i = some x → stepAccesses s = [rd s.pc, rd (s.pc + 1#16)]) ∧
    (∀ addr, i = .jmpAbs addr → stepAccesses s = [rd s.pc, rd (s.pc + 1#16), rd (s.pc + 2#16)]) ∧
    (∀ ptr, i = .jmpInd ptr → stepAccesses s =
      [rd s.pc, rd (s.pc + 1#16), rd (s.pc + 2#16), rd ptr,
        rd (if s.cfg.jmpIndPageWrap = true ∧ ptr.toNat % 256 = 255 then ptr - 0xFF#16 else ptr + 1#16)]) ∧
    (∀ addr, i = .jsr addr → s.cfg.stackPolicy = .wrap ∨ 2 ≤ s.sp.toNat → stepAccesses s =
      [rd s.pc, rd (s.pc + 1#16), rd (s.pc + 2#16), .write (stackAddr s.sp) (hi ret), .write (stackAddr (s.sp - 1#8)) (lo ret)]) ∧
    (i = .rts → s.cfg.stackPolicy = .wrap ∨ s.sp.toNat ≤ 0xFD → stepAccesses s =
      [rd s.pc, rd (stackAddr (s.sp + 1#8)), rd (stackAddr (s.sp + 2#8))]) ∧
    (i = .rti → s.cfg.stackPolicy = .wrap ∨ s.sp.toNat ≤ 0xFC → stepAccesses s =
      [rd s.pc, rd (stackAddr (s.sp + 1#8)), rd (stackAddr (s.sp + 2#8)), rd (stackAddr (s.sp + 3#8))]) ∧
    (i = .brk → s.cfg.stackPolicy = .wrap ∨ 3 ≤ s.sp.toNat → stepAccesses s =
      [rd s.pc, .write (stackAddr s.sp) (hi ret), .write (stackAddr (s.sp - 1#8)) (lo ret),
        .write (stackAddr (s.sp - 2#8)) (packP true s.flags), rd 0xFFFE#16, rd 0xFFFF#16])

/-- The access sequence of a step that a boundary fault cuts short, under raise at each pointer R212 lists (R172, R173, R180,
R181): the fetches, the pushes or pulls before the one that faults, and nothing after it. The fault pointers are the spec's
decision D7 (log 13), the order is D15 (log 11), the word `BRK` pushes is D24 (log 10). -/
def Obligations.BusSequencesCutShort : Prop :=
  ∀ (s : State) (i : Instr), s.Running → fetch s = some i → s.cfg.stackPolicy = .raise →
    let rd := fun a : Word => BusAccess.read a (s.read a)
    let ret := s.pc + 2#16
    (∀ addr, i = .jsr addr →
      (s.sp = 0x00#8 → stepAccesses s = [rd s.pc, rd (s.pc + 1#16), rd (s.pc + 2#16)]) ∧
      (s.sp = 0x01#8 → stepAccesses s = [rd s.pc, rd (s.pc + 1#16), rd (s.pc + 2#16), .write 0x0101#16 (hi ret)])) ∧
    (i = .brk →
      (s.sp = 0x00#8 → stepAccesses s = [rd s.pc]) ∧
      (s.sp = 0x01#8 → stepAccesses s = [rd s.pc, .write 0x0101#16 (hi ret)]) ∧
      (s.sp = 0x02#8 → stepAccesses s = [rd s.pc, .write 0x0102#16 (hi ret), .write 0x0101#16 (lo ret)])) ∧
    (i = .rts →
      (s.sp = 0xFF#8 → stepAccesses s = [rd s.pc]) ∧
      (s.sp = 0xFE#8 → stepAccesses s = [rd s.pc, rd 0x01FF#16])) ∧
    (i = .rti →
      (s.sp = 0xFF#8 → stepAccesses s = [rd s.pc]) ∧
      (s.sp = 0xFE#8 → stepAccesses s = [rd s.pc, rd 0x01FF#16]) ∧
      (s.sp = 0xFD#8 → stepAccesses s = [rd s.pc, rd 0x01FE#16, rd 0x01FF#16]))
end

