-- ==== Sys2Proof/Laws/Fetch.lean ====
section
/-! SUPPORT. The fetch as a function of the three bytes at `PC`, the guards of a running block, and the lookups. -/

namespace Sys2Proof

/-- A form the lookup gives stands in the opcode map under that byte. -/
theorem lookup_eq_some {op : Byte} {f : Form} (h : lookup op = some f) : ⟨op, f⟩ ∈ opcodeTable := by
  simp only [lookup, Option.map_eq_some_iff] at h
  obtain ⟨⟨o, g⟩, hd, rfl⟩ := h
  have ho : o = op := by simpa using List.find?_some hd
  subst ho
  exact List.mem_of_find?_eq_some hd

/-- The lookup fails exactly outside the opcode map. -/
theorem lookup_eq_none {op : Byte} : lookup op = none ↔ op ∉ opcodeBytes := by
  revert op; decide

end Sys2Proof

namespace Sys2Proof.Machine

/-- The fetch reads the opcode byte and at most two bytes after it (R79, R90). -/
theorem fetch_eq (s : State) :
    fetch s = (decode [s.read s.pc, s.read (s.pc + 1#16), s.read (s.pc + 2#16)]).instr? := by
  have e : s.pc + 1#16 + 1#16 = s.pc + 2#16 := by bv_omega
  simp only [fetch, fetchBytes, operandCount, State.read]
  generalize hop : s.mem.read s.pc = op
  cases hl : lookup op with
  | none => simp [decode, Memory.bytesFrom, hl, hop, Decoded.instr?]
  | some f =>
    cases f <;>
      simp [Form.mode, Mode.operandBytes, Memory.bytesFrom, e, decode, hl, hop, Form.assemble, Decoded.instr?]

/-- A running block meets no guard. -/
theorem guardRunning_of_running {s : State} (h : s.Running) : guardRunning s = none := by
  simp [guardRunning, h.2.1, h.2.2]

/-- A step of a running block whose fetch gives an instruction is that instruction, at every extension table. -/
theorem stepWith_of_fetch {s : State} {i : Instr} (ext : ExtTable) (h : s.Running) (hf : fetch s = some i) :
    stepWith ext s = exec i s := by
  simp [stepWith, guardRunning_of_running h, hf]

/-- In an allowed table each entry is the descriptor of its byte. -/
theorem descriptor_of_mem {ext : ExtTable} {op : Byte} {d : ExtDescriptor} (hwf : ext.wf = true) (h : (op, d) ∈ ext) :
    ext.descriptor op = some d := by
  have hn : (ext.map Prod.fst).Nodup := by
    simp only [ExtTable.wf, extDomainWellFormed, Bool.and_eq_true, decide_eq_true_eq] at hwf
    exact hwf.2
  clear hwf
  induction ext with
  | nil => cases h
  | cons entry rest ih =>
    simp only [List.map_cons, List.nodup_cons] at hn
    rcases List.mem_cons.1 h with rfl | h
    · simp [ExtTable.descriptor]
    · have hne : entry.1 ≠ op := by
        rintro rfl
        exact hn.1 (List.mem_map.2 ⟨_, h, rfl⟩)
      simpa [ExtTable.descriptor, hne] using ih h hn.2

end Sys2Proof.Machine
end

