-- ==== Sys2Proof/Laws/Memory.lean ====
section
/-! SUPPORT. The laws of memory: read after write, the canonical form, and that equal contents are equal lists. -/

namespace Sys2Proof.Machine

theorem Memory.readAt_filter (m : Memory) (k j : Nat) :
    Memory.readAt (m.filter fun cell => cell.1 != k) j = if j = k then unlistedByte else m.readAt j := by
  induction m with
  | nil => simp [Memory.readAt]
  | cons cell rest ih =>
    obtain ⟨p, w⟩ := cell
    by_cases hp : p = k
    · subst hp
      by_cases hj : j = p
      · subst hj; simpa using ih
      · simp [ih, hj, Memory.readAt, Ne.symm hj]
    · by_cases hj : p = j
      · subst hj; simp [hp, Memory.readAt]
      · simp [hp, hj, Memory.readAt, ih]

theorem Memory.readAt_insertAt (m : Memory) (k j : Nat) (v : Byte) :
    (m.insertAt k v).readAt j = if j = k then v else m.readAt j := by
  induction m with
  | nil => simp [Memory.insertAt, Memory.readAt, eq_comm]
  | cons cell rest ih =>
    obtain ⟨p, w⟩ := cell
    unfold Memory.insertAt
    split
    · by_cases hj : p = j
      · subst hj
        have : p ≠ k := by omega
        simp [Memory.readAt, this]
      · simp [Memory.readAt, hj, ih]
    · split
      · rename_i h; subst h
        simp only [Memory.readAt, eq_comm (a := j)]
        split <;> rfl
      · simp only [Memory.readAt, eq_comm (a := j)]

theorem Memory.readAt_writeAt (m : Memory) (k j : Nat) (v : Byte) :
    (m.writeAt k v).readAt j = if j = k then v else m.readAt j := by
  unfold Memory.writeAt
  split
  · rename_i h; subst h; exact Memory.readAt_filter m k j
  · exact Memory.readAt_insertAt m k j v

/-- A read gives the latest write to its address, and a write leaves every other address alone (R67). -/
theorem Memory.read_write (m : Memory) (addr other : Word) (v : Byte) :
    (m.write addr v).read other = if other = addr then v else m.read other := by
  simp only [Memory.read, Memory.write, Memory.readAt_writeAt, BitVec.toNat_inj]

@[simp] theorem Memory.read_write_same (m : Memory) (addr : Word) (v : Byte) : (m.write addr v).read addr = v := by
  simp [Memory.read_write]

theorem Memory.read_write_other (m : Memory) {addr other : Word} (v : Byte) (h : other ≠ addr) :
    (m.write addr v).read other = m.read other := by
  simp [Memory.read_write, h]

/-! The canonical form. -/

theorem Memory.wfFrom_mono {m : Memory} {low low' : Nat} (h : m.wfFrom low = true) (hle : low' ≤ low) :
    m.wfFrom low' = true := by
  cases m with
  | nil => rfl
  | cons cell rest =>
    simp only [Memory.wfFrom, Bool.and_eq_true, decide_eq_true_eq] at h ⊢
    exact ⟨⟨⟨by omega, h.1.1.2⟩, h.1.2⟩, h.2⟩

theorem Memory.wfFrom_filter (p : Host.Cell → Bool) {m : Memory} {low : Nat} (h : m.wfFrom low = true) :
    Memory.wfFrom (m.filter p) low = true := by
  induction m generalizing low with
  | nil => rfl
  | cons cell rest ih =>
    simp only [Memory.wfFrom, Bool.and_eq_true, decide_eq_true_eq] at h
    rw [List.filter_cons]
    split
    · simp only [Memory.wfFrom, Bool.and_eq_true, decide_eq_true_eq]
      exact ⟨h.1, ih h.2⟩
    · exact Memory.wfFrom_mono (ih h.2) (by omega)

theorem Memory.wfFrom_insertAt {m : Memory} {low k : Nat} {v : Byte} (h : m.wfFrom low = true) (hlow : low ≤ k)
    (hk : k < 65536) (hv : v ≠ unlistedByte) : (m.insertAt k v).wfFrom low = true := by
  induction m generalizing low with
  | nil => simp [Memory.insertAt, Memory.wfFrom, hlow, hk, hv]
  | cons cell rest ih =>
    obtain ⟨p, w⟩ := cell
    simp only [Memory.wfFrom, Bool.and_eq_true, decide_eq_true_eq] at h
    unfold Memory.insertAt
    split
    · simp only [Memory.wfFrom, Bool.and_eq_true, decide_eq_true_eq]
      exact ⟨h.1, ih h.2 (by omega)⟩
    · split
      · rename_i hp; subst hp
        simp only [Memory.wfFrom, Bool.and_eq_true, decide_eq_true_eq]
        exact ⟨⟨⟨hlow, hk⟩, hv⟩, h.2⟩
      · simp only [Memory.wfFrom, Bool.and_eq_true, decide_eq_true_eq]
        exact ⟨⟨⟨hlow, hk⟩, hv⟩, ⟨⟨by omega, h.1.1.2⟩, h.1.2⟩, h.2⟩

/-- A write keeps the canonical form. -/
theorem Memory.wf_write {m : Memory} (h : m.wf = true) (addr : Word) (v : Byte) : (m.write addr v).wf = true := by
  unfold Memory.wf Memory.write Memory.writeAt
  split
  · exact Memory.wfFrom_filter _ h
  · rename_i hv
    exact Memory.wfFrom_insertAt h (Nat.zero_le _) addr.isLt hv

/-- Storing a list of bytes keeps the canonical form. -/
theorem Memory.wf_store {m : Memory} (h : m.wf = true) (addr : Word) (bs : List Byte) : (m.store addr bs).wf = true := by
  induction bs generalizing m addr with
  | nil => exact h
  | cons b rest ih => exact ih (Memory.wf_write h addr b) _

theorem Memory.readAt_below {m : Memory} {low k : Nat} (h : m.wfFrom low = true) (hk : k < low) :
    m.readAt k = unlistedByte := by
  induction m generalizing low with
  | nil => rfl
  | cons cell rest ih =>
    obtain ⟨p, w⟩ := cell
    simp only [Memory.wfFrom, Bool.and_eq_true, decide_eq_true_eq] at h
    have hp : p ≠ k := by omega
    simp only [Memory.readAt, hp, if_false]
    exact ih h.2 (by omega)

theorem Memory.readAt_head_ne {p : Nat} {w : Byte} {rest : Memory} {low : Nat} (h : Memory.wfFrom ((p, w) :: rest) low = true) :
    Memory.readAt ((p, w) :: rest) p ≠ unlistedByte := by
  simp only [Memory.wfFrom, Bool.and_eq_true, decide_eq_true_eq] at h
  simpa [Memory.readAt] using h.1.2

/-- Equal contents are equal lists, for two memories in canonical form. -/
theorem Memory.eq_of_readAt {m m' : Memory} {low : Nat} (h : m.wfFrom low = true) (h' : m'.wfFrom low = true)
    (heq : ∀ k, k < 65536 → m.readAt k = m'.readAt k) : m = m' := by
  induction m generalizing m' low with
  | nil =>
    cases m' with
    | nil => rfl
    | cons cell rest =>
      have hlt := h'
      simp only [Memory.wfFrom, Bool.and_eq_true, decide_eq_true_eq] at hlt
      exact absurd (heq cell.1 hlt.1.1.2).symm (Memory.readAt_head_ne h')
  | cons cell rest ih =>
    obtain ⟨p, w⟩ := cell
    have hs := h
    simp only [Memory.wfFrom, Bool.and_eq_true, decide_eq_true_eq] at hs
    cases m' with
    | nil => exact absurd (heq p hs.1.1.2) (Memory.readAt_head_ne h)
    | cons cell' rest' =>
      obtain ⟨p', w'⟩ := cell'
      have hs' := h'
      simp only [Memory.wfFrom, Bool.and_eq_true, decide_eq_true_eq] at hs'
      have hp : p = p' := by
        by_contra hne
        rcases Nat.lt_or_gt_of_ne hne with hlt | hlt
        · have h1 := Memory.readAt_below (m := (p', w') :: rest') (low := p + 1) (k := p)
            (by simp only [Memory.wfFrom, Bool.and_eq_true, decide_eq_true_eq]
                exact ⟨⟨⟨by omega, hs'.1.1.2⟩, hs'.1.2⟩, hs'.2⟩) (by omega)
          exact Memory.readAt_head_ne h ((heq p hs.1.1.2).trans h1)
        · have h1 := Memory.readAt_below (m := (p, w) :: rest) (low := p' + 1) (k := p')
            (by simp only [Memory.wfFrom, Bool.and_eq_true, decide_eq_true_eq]
                exact ⟨⟨⟨by omega, hs.1.1.2⟩, hs.1.2⟩, hs.2⟩) (by omega)
          exact Memory.readAt_head_ne h' ((heq p' hs'.1.1.2).symm.trans h1)
      subst hp
      have hw : w = w' := by
        have := heq p hs.1.1.2
        simpa [Memory.readAt] using this
      subst hw
      have : rest = rest' := by
        refine ih hs.2 hs'.2 fun k hk => ?_
        by_cases hpk : k ≤ p
        · rw [Memory.readAt_below hs.2 (by omega), Memory.readAt_below hs'.2 (by omega)]
        · have := heq k hk
          simpa [Memory.readAt, show p ≠ k by omega] using this
      rw [this]

/-- Two canonical memories that read alike at every address are equal. -/
theorem Memory.ext_read {m m' : Memory} (h : m.wf = true) (h' : m'.wf = true) (heq : ∀ addr, m.read addr = m'.read addr) :
    m = m' :=
  Memory.eq_of_readAt h h' fun k hk => by
    have := heq (BitVec.ofNat 16 k)
    simpa [Memory.read, Nat.mod_eq_of_lt hk] using this

end Sys2Proof.Machine
end

