-- ==== Sys2Proof/Laws/Operands.lean ====
section
/-! SUPPORT. The addresses an instruction computes: the following instruction, the pointer of Indirect, page crossing. -/

namespace Sys2Proof.Machine

theorem nextPc_zero (w : Word) : nextPc w 0 = w + 1#16 := by simp [nextPc]

theorem nextPc_one (w : Word) : nextPc w 1 = w + 2#16 := by simp only [nextPc]; bv_omega

theorem nextPc_two (w : Word) : nextPc w 2 = w + 3#16 := by simp only [nextPc]; bv_omega

/-- The high-byte address of Indirect (R153): the page start at a pointer that ends its page under the page wrap. -/
theorem indirectHighAddr_eq (cfg : Config) (ptr : Word) :
    indirectHighAddr cfg ptr =
      if cfg.jmpIndPageWrap = true ∧ ptr.toNat % 256 = 255 then ptr - 0xFF#16 else ptr + 1#16 := by
  have key : word (hi ptr) (lo ptr + 1#8) = if ptr.toNat % 256 = 255 then ptr - 0xFF#16 else ptr + 1#16 := by
    have := ptr.isLt
    apply BitVec.eq_of_toNat_eq
    rw [word_toNat, hi_toNat, BitVec.toNat_add, lo_toNat]
    split
    · rw [BitVec.toNat_sub]; simp; omega
    · rw [BitVec.toNat_add]; simp; omega
  unfold indirectHighAddr
  rw [key]
  by_cases hw : cfg.jmpIndPageWrap = true <;> simp [hw]

theorem pageCross_eq_true {a b : Word} : pageCross a b = true ↔ hi a ≠ hi b := by simp [pageCross]

theorem hi_eq_iff {a b : Word} : hi a = hi b ↔ a.toNat / 256 = b.toNat / 256 := by
  rw [← hi_toNat, ← hi_toNat, BitVec.toNat_inj]

end Sys2Proof.Machine
end

