-- ==== Sys2Proof/Laws/State.lean ====
section
/-! SUPPORT. One lemma per field and state update, true by rfl, so that no proof unfolds a record update. -/

namespace Sys2Proof.Machine

variable (s : State)

@[simp] theorem State.setA_a (b : Byte) : (s.setA b).a = b := rfl
@[simp] theorem State.setA_x (b : Byte) : (s.setA b).x = s.x := rfl
@[simp] theorem State.setA_y (b : Byte) : (s.setA b).y = s.y := rfl
@[simp] theorem State.setA_sp (b : Byte) : (s.setA b).sp = s.sp := rfl
@[simp] theorem State.setA_pc (b : Byte) : (s.setA b).pc = s.pc := rfl
@[simp] theorem State.setA_flags (b : Byte) : (s.setA b).flags = s.flags := rfl
@[simp] theorem State.setA_started (b : Byte) : (s.setA b).started = s.started := rfl
@[simp] theorem State.setA_cyc (b : Byte) : (s.setA b).cyc = s.cyc := rfl
@[simp] theorem State.setA_fault (b : Byte) : (s.setA b).fault = s.fault := rfl
@[simp] theorem State.setA_mem (b : Byte) : (s.setA b).mem = s.mem := rfl
@[simp] theorem State.setA_cfg (b : Byte) : (s.setA b).cfg = s.cfg := rfl

@[simp] theorem State.setX_a (b : Byte) : (s.setX b).a = s.a := rfl
@[simp] theorem State.setX_x (b : Byte) : (s.setX b).x = b := rfl
@[simp] theorem State.setX_y (b : Byte) : (s.setX b).y = s.y := rfl
@[simp] theorem State.setX_sp (b : Byte) : (s.setX b).sp = s.sp := rfl
@[simp] theorem State.setX_pc (b : Byte) : (s.setX b).pc = s.pc := rfl
@[simp] theorem State.setX_flags (b : Byte) : (s.setX b).flags = s.flags := rfl
@[simp] theorem State.setX_started (b : Byte) : (s.setX b).started = s.started := rfl
@[simp] theorem State.setX_cyc (b : Byte) : (s.setX b).cyc = s.cyc := rfl
@[simp] theorem State.setX_fault (b : Byte) : (s.setX b).fault = s.fault := rfl
@[simp] theorem State.setX_mem (b : Byte) : (s.setX b).mem = s.mem := rfl
@[simp] theorem State.setX_cfg (b : Byte) : (s.setX b).cfg = s.cfg := rfl

@[simp] theorem State.setY_a (b : Byte) : (s.setY b).a = s.a := rfl
@[simp] theorem State.setY_x (b : Byte) : (s.setY b).x = s.x := rfl
@[simp] theorem State.setY_y (b : Byte) : (s.setY b).y = b := rfl
@[simp] theorem State.setY_sp (b : Byte) : (s.setY b).sp = s.sp := rfl
@[simp] theorem State.setY_pc (b : Byte) : (s.setY b).pc = s.pc := rfl
@[simp] theorem State.setY_flags (b : Byte) : (s.setY b).flags = s.flags := rfl
@[simp] theorem State.setY_started (b : Byte) : (s.setY b).started = s.started := rfl
@[simp] theorem State.setY_cyc (b : Byte) : (s.setY b).cyc = s.cyc := rfl
@[simp] theorem State.setY_fault (b : Byte) : (s.setY b).fault = s.fault := rfl
@[simp] theorem State.setY_mem (b : Byte) : (s.setY b).mem = s.mem := rfl
@[simp] theorem State.setY_cfg (b : Byte) : (s.setY b).cfg = s.cfg := rfl

@[simp] theorem State.setSp_a (b : Byte) : (s.setSp b).a = s.a := rfl
@[simp] theorem State.setSp_x (b : Byte) : (s.setSp b).x = s.x := rfl
@[simp] theorem State.setSp_y (b : Byte) : (s.setSp b).y = s.y := rfl
@[simp] theorem State.setSp_sp (b : Byte) : (s.setSp b).sp = b := rfl
@[simp] theorem State.setSp_pc (b : Byte) : (s.setSp b).pc = s.pc := rfl
@[simp] theorem State.setSp_flags (b : Byte) : (s.setSp b).flags = s.flags := rfl
@[simp] theorem State.setSp_started (b : Byte) : (s.setSp b).started = s.started := rfl
@[simp] theorem State.setSp_cyc (b : Byte) : (s.setSp b).cyc = s.cyc := rfl
@[simp] theorem State.setSp_fault (b : Byte) : (s.setSp b).fault = s.fault := rfl
@[simp] theorem State.setSp_mem (b : Byte) : (s.setSp b).mem = s.mem := rfl
@[simp] theorem State.setSp_cfg (b : Byte) : (s.setSp b).cfg = s.cfg := rfl

@[simp] theorem State.setPc_a (w : Word) : (s.setPc w).a = s.a := rfl
@[simp] theorem State.setPc_x (w : Word) : (s.setPc w).x = s.x := rfl
@[simp] theorem State.setPc_y (w : Word) : (s.setPc w).y = s.y := rfl
@[simp] theorem State.setPc_sp (w : Word) : (s.setPc w).sp = s.sp := rfl
@[simp] theorem State.setPc_pc (w : Word) : (s.setPc w).pc = w := rfl
@[simp] theorem State.setPc_flags (w : Word) : (s.setPc w).flags = s.flags := rfl
@[simp] theorem State.setPc_started (w : Word) : (s.setPc w).started = s.started := rfl
@[simp] theorem State.setPc_cyc (w : Word) : (s.setPc w).cyc = s.cyc := rfl
@[simp] theorem State.setPc_fault (w : Word) : (s.setPc w).fault = s.fault := rfl
@[simp] theorem State.setPc_mem (w : Word) : (s.setPc w).mem = s.mem := rfl
@[simp] theorem State.setPc_cfg (w : Word) : (s.setPc w).cfg = s.cfg := rfl

@[simp] theorem State.setFlags_a (f : Flags) : (s.setFlags f).a = s.a := rfl
@[simp] theorem State.setFlags_x (f : Flags) : (s.setFlags f).x = s.x := rfl
@[simp] theorem State.setFlags_y (f : Flags) : (s.setFlags f).y = s.y := rfl
@[simp] theorem State.setFlags_sp (f : Flags) : (s.setFlags f).sp = s.sp := rfl
@[simp] theorem State.setFlags_pc (f : Flags) : (s.setFlags f).pc = s.pc := rfl
@[simp] theorem State.setFlags_flags (f : Flags) : (s.setFlags f).flags = f := rfl
@[simp] theorem State.setFlags_started (f : Flags) : (s.setFlags f).started = s.started := rfl
@[simp] theorem State.setFlags_cyc (f : Flags) : (s.setFlags f).cyc = s.cyc := rfl
@[simp] theorem State.setFlags_fault (f : Flags) : (s.setFlags f).fault = s.fault := rfl
@[simp] theorem State.setFlags_mem (f : Flags) : (s.setFlags f).mem = s.mem := rfl
@[simp] theorem State.setFlags_cfg (f : Flags) : (s.setFlags f).cfg = s.cfg := rfl

@[simp] theorem State.setMem_a (m : Memory) : (s.setMem m).a = s.a := rfl
@[simp] theorem State.setMem_x (m : Memory) : (s.setMem m).x = s.x := rfl
@[simp] theorem State.setMem_y (m : Memory) : (s.setMem m).y = s.y := rfl
@[simp] theorem State.setMem_sp (m : Memory) : (s.setMem m).sp = s.sp := rfl
@[simp] theorem State.setMem_pc (m : Memory) : (s.setMem m).pc = s.pc := rfl
@[simp] theorem State.setMem_flags (m : Memory) : (s.setMem m).flags = s.flags := rfl
@[simp] theorem State.setMem_started (m : Memory) : (s.setMem m).started = s.started := rfl
@[simp] theorem State.setMem_cyc (m : Memory) : (s.setMem m).cyc = s.cyc := rfl
@[simp] theorem State.setMem_fault (m : Memory) : (s.setMem m).fault = s.fault := rfl
@[simp] theorem State.setMem_mem (m : Memory) : (s.setMem m).mem = m := rfl
@[simp] theorem State.setMem_cfg (m : Memory) : (s.setMem m).cfg = s.cfg := rfl

@[simp] theorem State.addCycles_a (n : Nat) : (s.addCycles n).a = s.a := rfl
@[simp] theorem State.addCycles_x (n : Nat) : (s.addCycles n).x = s.x := rfl
@[simp] theorem State.addCycles_y (n : Nat) : (s.addCycles n).y = s.y := rfl
@[simp] theorem State.addCycles_sp (n : Nat) : (s.addCycles n).sp = s.sp := rfl
@[simp] theorem State.addCycles_pc (n : Nat) : (s.addCycles n).pc = s.pc := rfl
@[simp] theorem State.addCycles_flags (n : Nat) : (s.addCycles n).flags = s.flags := rfl
@[simp] theorem State.addCycles_started (n : Nat) : (s.addCycles n).started = s.started := rfl
@[simp] theorem State.addCycles_cyc (n : Nat) : (s.addCycles n).cyc = s.cyc + n := rfl
@[simp] theorem State.addCycles_fault (n : Nat) : (s.addCycles n).fault = s.fault := rfl
@[simp] theorem State.addCycles_mem (n : Nat) : (s.addCycles n).mem = s.mem := rfl
@[simp] theorem State.addCycles_cfg (n : Nat) : (s.addCycles n).cfg = s.cfg := rfl

@[simp] theorem State.recordFault_a (f : Fault) : (s.recordFault f).a = s.a := rfl
@[simp] theorem State.recordFault_x (f : Fault) : (s.recordFault f).x = s.x := rfl
@[simp] theorem State.recordFault_y (f : Fault) : (s.recordFault f).y = s.y := rfl
@[simp] theorem State.recordFault_sp (f : Fault) : (s.recordFault f).sp = s.sp := rfl
@[simp] theorem State.recordFault_pc (f : Fault) : (s.recordFault f).pc = s.pc := rfl
@[simp] theorem State.recordFault_flags (f : Fault) : (s.recordFault f).flags = s.flags := rfl
@[simp] theorem State.recordFault_started (f : Fault) : (s.recordFault f).started = s.started := rfl
@[simp] theorem State.recordFault_cyc (f : Fault) : (s.recordFault f).cyc = s.cyc := rfl
@[simp] theorem State.recordFault_fault (f : Fault) : (s.recordFault f).fault = some (s.fault.getD f) := rfl
@[simp] theorem State.recordFault_mem (f : Fault) : (s.recordFault f).mem = s.mem := rfl
@[simp] theorem State.recordFault_cfg (f : Fault) : (s.recordFault f).cfg = s.cfg := rfl

@[simp] theorem State.write_a (addr : Word) (v : Byte) : (s.write addr v).a = s.a := rfl
@[simp] theorem State.write_x (addr : Word) (v : Byte) : (s.write addr v).x = s.x := rfl
@[simp] theorem State.write_y (addr : Word) (v : Byte) : (s.write addr v).y = s.y := rfl
@[simp] theorem State.write_sp (addr : Word) (v : Byte) : (s.write addr v).sp = s.sp := rfl
@[simp] theorem State.write_pc (addr : Word) (v : Byte) : (s.write addr v).pc = s.pc := rfl
@[simp] theorem State.write_flags (addr : Word) (v : Byte) : (s.write addr v).flags = s.flags := rfl
@[simp] theorem State.write_started (addr : Word) (v : Byte) : (s.write addr v).started = s.started := rfl
@[simp] theorem State.write_cyc (addr : Word) (v : Byte) : (s.write addr v).cyc = s.cyc := rfl
@[simp] theorem State.write_fault (addr : Word) (v : Byte) : (s.write addr v).fault = s.fault := rfl
@[simp] theorem State.write_mem (addr : Word) (v : Byte) : (s.write addr v).mem = s.mem.write addr v := rfl
@[simp] theorem State.write_cfg (addr : Word) (v : Byte) : (s.write addr v).cfg = s.cfg := rfl

@[simp] theorem advance_a (m : Mode) : (advance m s).a = s.a := rfl
@[simp] theorem advance_x (m : Mode) : (advance m s).x = s.x := rfl
@[simp] theorem advance_y (m : Mode) : (advance m s).y = s.y := rfl
@[simp] theorem advance_sp (m : Mode) : (advance m s).sp = s.sp := rfl
@[simp] theorem advance_pc (m : Mode) : (advance m s).pc = nextPc s.pc m.operandBytes := rfl
@[simp] theorem advance_flags (m : Mode) : (advance m s).flags = s.flags := rfl
@[simp] theorem advance_started (m : Mode) : (advance m s).started = s.started := rfl
@[simp] theorem advance_cyc (m : Mode) : (advance m s).cyc = s.cyc := rfl
@[simp] theorem advance_fault (m : Mode) : (advance m s).fault = s.fault := rfl
@[simp] theorem advance_mem (m : Mode) : (advance m s).mem = s.mem := rfl
@[simp] theorem advance_cfg (m : Mode) : (advance m s).cfg = s.cfg := rfl

/-- Two states are equal when their fields are. -/
@[ext] theorem State.ext' {s t : State} (ha : s.a = t.a) (hx : s.x = t.x) (hy : s.y = t.y) (hsp : s.sp = t.sp) (hpc : s.pc = t.pc)
    (hf : s.flags = t.flags) (hst : s.started = t.started) (hc : s.cyc = t.cyc) (hfa : s.fault = t.fault) (hm : s.mem = t.mem)
    (hcfg : s.cfg = t.cfg) : s = t := by
  cases s; cases t; simp_all

/-- Reading a byte depends on the memory alone. -/
theorem State.read_def (addr : Word) : s.read addr = s.mem.read addr := rfl

end Sys2Proof.Machine
end

