-- ==== Sys2Proof/Laws/Ops.lean ====
section
/-! SUPPORT. What the shared operations can do, said once: sequencing, push and pull, the words, trap entry and return. -/

namespace Sys2Proof.Machine

variable {α β : Type}

/-! Sequencing. -/

@[simp] theorem andThen_next (v : α) (k : α → Result β) : andThen (.next v) k = k v := rfl
@[simp] theorem andThen_fault (f : Fault) (k : α → Result β) : andThen (.fault f) k = .fault f := rfl
@[simp] theorem andThen_refused (q : Refusal) (k : α → Result β) : andThen (.refused q) k = .refused q := rfl

/-- A sequence that succeeds has two parts that succeed. -/
theorem andThen_eq_next {r : Result α} {k : α → Result β} {v : β} (h : andThen r k = .next v) :
    ∃ u, r = .next u ∧ k u = .next v := by
  cases r with
  | next u => exact ⟨u, rfl, h⟩
  | fault f => cases h
  | refused q => cases h

/-- A sequence that faults does so in its first part or in its second. -/
theorem andThen_eq_fault {r : Result α} {k : α → Result β} {f : Fault} (h : andThen r k = .fault f) :
    r = .fault f ∨ ∃ u, r = .next u ∧ k u = .fault f := by
  cases r with
  | next u => exact .inr ⟨u, rfl, h⟩
  | fault g => exact .inl (by cases h; rfl)
  | refused q => cases h

/-- A sequence that refuses does so in its first part or in its second. -/
theorem andThen_eq_refused {r : Result α} {k : α → Result β} {q : Refusal} (h : andThen r k = .refused q) :
    r = .refused q ∨ ∃ u, r = .next u ∧ k u = .refused q := by
  cases r with
  | next u => exact .inr ⟨u, rfl, h⟩
  | fault g => cases h
  | refused p => exact .inl (by cases h; rfl)

/-! The boundary checks (R72). -/

theorem pushBlocked_eq_true {cfg : Config} {sp : Byte} :
    pushBlocked cfg sp = true ↔ cfg.stackPolicy = .raise ∧ sp = 0x00#8 := by
  simp [pushBlocked]

theorem pullBlocked_eq_true {cfg : Config} {sp : Byte} :
    pullBlocked cfg sp = true ↔ cfg.stackPolicy = .raise ∧ sp = 0xFF#8 := by
  simp [pullBlocked]

theorem pushBlocked_of_wrap {cfg : Config} (h : cfg.stackPolicy = .wrap) (sp : Byte) : pushBlocked cfg sp = false := by
  simp [pushBlocked, h]

theorem pullBlocked_of_wrap {cfg : Config} (h : cfg.stackPolicy = .wrap) (sp : Byte) : pullBlocked cfg sp = false := by
  simp [pullBlocked, h]

/-- A push is free under wrap and from every pointer but 0x00. -/
theorem pushBlocked_eq_false {cfg : Config} {sp : Byte} :
    pushBlocked cfg sp = false ↔ cfg.stackPolicy = .wrap ∨ 1 ≤ sp.toNat := by
  have e : sp = 0x00#8 ↔ ¬ 1 ≤ sp.toNat := by rw [← BitVec.toNat_inj]; simp
  cases h : cfg.stackPolicy <;> simp [pushBlocked, h, e, Nat.one_le_iff_ne_zero]

/-- A pull is free under wrap and from every pointer but 0xFF. -/
theorem pullBlocked_eq_false {cfg : Config} {sp : Byte} :
    pullBlocked cfg sp = false ↔ cfg.stackPolicy = .wrap ∨ sp.toNat ≤ 0xFE := by
  have e : sp = 0xFF#8 ↔ ¬ sp.toNat ≤ 0xFE := by
    have := sp.isLt
    rw [← BitVec.toNat_inj]
    simp; omega
  cases h : cfg.stackPolicy <;> simp [pullBlocked, h, e]

/-! One byte. -/

/-- A push that is not blocked. -/
theorem push_of_free {b : Byte} {s : State} (h : pushBlocked s.cfg s.sp = false) :
    push b s = .next ((s.write (stackAddr s.sp) b).setSp (s.sp - 1#8)) := by
  simp [push, h]

/-- Everything a push that succeeds did. -/
theorem push_eq_next {b : Byte} {s t : State} (h : push b s = .next t) :
    pushBlocked s.cfg s.sp = false ∧ t = (s.write (stackAddr s.sp) b).setSp (s.sp - 1#8) := by
  unfold push at h
  split at h
  · cases h
  · rename_i hb; exact ⟨by simpa using hb, by cases h; rfl⟩

/-- The one fault of a push. -/
theorem push_eq_fault {b : Byte} {s : State} {f : Fault} (h : push b s = .fault f) :
    s.cfg.stackPolicy = .raise ∧ s.sp = 0x00#8 ∧ f = .stackBoundary .overflow 0x00#8 := by
  unfold push at h
  split at h
  · rename_i hb
    obtain ⟨hp, hs⟩ := pushBlocked_eq_true.1 hb
    rw [hs] at h
    exact ⟨hp, hs, by cases h; rfl⟩
  · cases h

theorem push_ne_refused {b : Byte} {s : State} {q : Refusal} : push b s ≠ .refused q := by
  unfold push; split <;> simp

/-- A pull that is not blocked. -/
theorem pull_of_free {s : State} (h : pullBlocked s.cfg s.sp = false) :
    pull s = .next (s.read (stackAddr (s.sp + 1#8)), s.setSp (s.sp + 1#8)) := by
  simp [pull, h]

/-- Everything a pull that succeeds did. -/
theorem pull_eq_next {s t : State} {b : Byte} (h : pull s = .next (b, t)) :
    pullBlocked s.cfg s.sp = false ∧ b = s.read (stackAddr (s.sp + 1#8)) ∧ t = s.setSp (s.sp + 1#8) := by
  unfold pull at h
  split at h
  · cases h
  · rename_i hb; exact ⟨by simpa using hb, by cases h; exact ⟨rfl, rfl⟩⟩

/-- The one fault of a pull. -/
theorem pull_eq_fault {s : State} {f : Fault} (h : pull s = .fault f) :
    s.cfg.stackPolicy = .raise ∧ s.sp = 0xFF#8 ∧ f = .stackBoundary .underflow 0xFF#8 := by
  unfold pull at h
  split at h
  · rename_i hb
    obtain ⟨hp, hs⟩ := pullBlocked_eq_true.1 hb
    rw [hs] at h
    exact ⟨hp, hs, by cases h; rfl⟩
  · cases h

theorem pull_ne_refused {s : State} {q : Refusal} : pull s ≠ .refused q := by
  unfold pull; split <;> simp

/-! Words. -/

/-- A word push that is not blocked (R73). -/
theorem pushWord_of_free {w : Word} {s : State} (h : pushBlocked s.cfg s.sp = false)
    (h' : pushBlocked s.cfg (s.sp - 1#8) = false) :
    pushWord w s = .next ((((s.write (stackAddr s.sp) (hi w)).setSp (s.sp - 1#8)).write (stackAddr (s.sp - 1#8)) (lo w)).setSp
      (s.sp - 1#8 - 1#8)) := by
  unfold pushWord
  rw [push_of_free h, andThen_next, push_of_free (by simpa using h')]
  rfl

/-- Everything a word push that succeeds did. -/
theorem pushWord_eq_next {w : Word} {s t : State} (h : pushWord w s = .next t) :
    pushBlocked s.cfg s.sp = false ∧ pushBlocked s.cfg (s.sp - 1#8) = false ∧
      t = (((s.write (stackAddr s.sp) (hi w)).setSp (s.sp - 1#8)).write (stackAddr (s.sp - 1#8)) (lo w)).setSp
        (s.sp - 1#8 - 1#8) := by
  obtain ⟨u, hu, ht⟩ := andThen_eq_next h
  obtain ⟨hb, rfl⟩ := push_eq_next hu
  obtain ⟨hb', rfl⟩ := push_eq_next ht
  exact ⟨hb, by simpa using hb', rfl⟩

/-- A word pull that is not blocked (R74). -/
theorem pullWord_of_free {s : State} (h : pullBlocked s.cfg s.sp = false) (h' : pullBlocked s.cfg (s.sp + 1#8) = false) :
    pullWord s = .next (word (s.read (stackAddr (s.sp + 1#8 + 1#8))) (s.read (stackAddr (s.sp + 1#8))),
      s.setSp (s.sp + 1#8 + 1#8)) := by
  unfold pullWord
  simp only [pull_of_free h, andThen_next]
  rw [pull_of_free (by simpa using h')]
  rfl

/-- Everything a word pull that succeeds did. -/
theorem pullWord_eq_next {s t : State} {w : Word} (h : pullWord s = .next (w, t)) :
    pullBlocked s.cfg s.sp = false ∧ pullBlocked s.cfg (s.sp + 1#8) = false ∧
      w = word (s.read (stackAddr (s.sp + 1#8 + 1#8))) (s.read (stackAddr (s.sp + 1#8))) ∧
      t = s.setSp (s.sp + 1#8 + 1#8) := by
  obtain ⟨⟨l, u⟩, hu, ht⟩ := andThen_eq_next h
  obtain ⟨hb, rfl, rfl⟩ := pull_eq_next hu
  obtain ⟨⟨g, v⟩, hv, hw⟩ := andThen_eq_next ht
  obtain ⟨hb', rfl, rfl⟩ := pull_eq_next hv
  cases hw
  exact ⟨hb, by simpa using hb', rfl, rfl⟩

/-! The stack page (R69). -/

theorem stackAddr_toNat (sp : Byte) : (stackAddr sp).toNat = 0x0100 + sp.toNat := by
  have := sp.isLt
  simp [stackAddr, zext16]
  omega

theorem stackAddr_inj {a b : Byte} : stackAddr a = stackAddr b ↔ a = b := by
  constructor
  · intro h
    have := congrArg BitVec.toNat h
    rw [stackAddr_toNat, stackAddr_toNat] at this
    exact BitVec.eq_of_toNat_eq (by omega)
  · rintro rfl; rfl

/-- The three pointers of a row of pushes differ. -/
theorem sp_sub_one_ne (sp : Byte) : sp - 1#8 ≠ sp := by
  intro h; bv_omega

theorem sp_sub_two_ne (sp : Byte) : sp - 1#8 - 1#8 ≠ sp := by
  intro h; bv_omega

theorem sp_sub_add (sp : Byte) : sp - 1#8 + 1#8 = sp := by bv_omega

theorem sp_add_sub (sp : Byte) : sp + 1#8 - 1#8 = sp := by bv_omega

/-! The trap. -/

/-- Everything a trap entry that succeeds did (R216). -/
theorem takeTrap_eq_next {resume : Word} {s t : State} (h : takeTrap resume s = .next t) :
    ∃ s1 s2, pushWord resume s = .next s1 ∧ push (packP true s1.flags) s1 = .next s2 ∧
      t = (s2.setFlags { s2.flags with i := true }).setPc (s2.mem.readWord brkVector) := by
  obtain ⟨s1, h1, h2⟩ := andThen_eq_next h
  obtain ⟨s2, h3, h4⟩ := andThen_eq_next h2
  exact ⟨s1, s2, h1, h3, by cases h4; rfl⟩

/-- Everything a trap return that succeeds did (R220). -/
theorem returnFromTrap_eq_next {s t : State} (h : returnFromTrap s = .next t) :
    ∃ b s1 w s2, pull s = .next (b, s1) ∧ pullWord (s1.setFlags (unpackP b)) = .next (w, s2) ∧ t = s2.setPc w := by
  obtain ⟨⟨b, s1⟩, h1, h2⟩ := andThen_eq_next h
  obtain ⟨⟨w, s2⟩, h3, h4⟩ := andThen_eq_next h2
  exact ⟨b, s1, w, s2, h1, h3, by cases h4; rfl⟩

end Sys2Proof.Machine
end

