-- ==== Sys2Proof/Laws/PerInstr.lean ====
section
/-! SUPPORT. Facts of every instruction, one lemma per constructor. Family RoundTrip: the decoder reads back what the encoder
wrote, whatever bytes follow, and the length is that of the instruction's mode (R90, R91). -/

namespace Sys2Proof.Laws.RoundTrip

/-- Decoding the bytes of the instruction, with anything after them, gives the instruction and leaves what was after. -/
def Statement (i : Instr) : Prop :=
  (encode i).length = 1 + i.mode.operandBytes ∧ ∀ rest, decode (encode i ++ rest) = .instr i rest

theorem brk : Statement .brk := ⟨rfl, fun _ => rfl⟩
theorem rti : Statement .rti := ⟨rfl, fun _ => rfl⟩
theorem rts : Statement .rts := ⟨rfl, fun _ => rfl⟩
theorem bpl (r : Byte) : Statement (.bpl r) := ⟨rfl, fun _ => rfl⟩
theorem bmi (r : Byte) : Statement (.bmi r) := ⟨rfl, fun _ => rfl⟩
theorem bvc (r : Byte) : Statement (.bvc r) := ⟨rfl, fun _ => rfl⟩
theorem bvs (r : Byte) : Statement (.bvs r) := ⟨rfl, fun _ => rfl⟩
theorem bcc (r : Byte) : Statement (.bcc r) := ⟨rfl, fun _ => rfl⟩
theorem bcs (r : Byte) : Statement (.bcs r) := ⟨rfl, fun _ => rfl⟩
theorem bne (r : Byte) : Statement (.bne r) := ⟨rfl, fun _ => rfl⟩
theorem beq (r : Byte) : Statement (.beq r) := ⟨rfl, fun _ => rfl⟩

theorem jsr (a : Word) : Statement (.jsr a) :=
  ⟨rfl, fun rest => by
    change Decoded.instr (.jsr (word (hi a) (lo a))) rest = _
    rw [word_hi_lo]⟩

theorem jmpAbs (a : Word) : Statement (.jmpAbs a) :=
  ⟨rfl, fun rest => by
    change Decoded.instr (.jmpAbs (word (hi a) (lo a))) rest = _
    rw [word_hi_lo]⟩

theorem jmpInd (p : Word) : Statement (.jmpInd p) :=
  ⟨rfl, fun rest => by
    change Decoded.instr (.jmpInd (word (hi p) (lo p))) rest = _
    rw [word_hi_lo]⟩

end Sys2Proof.Laws.RoundTrip
end

