-- ==== Sys2Proof/Tests/Slice0.lean ====
section
/-! SUPPORT. Tests: expected values come from spec/95_test_vectors.md (ids J1, S1, ...) and the examples in the rules; then one
witness for each statement that has hypotheses. -/

namespace Sys2Proof.Tests

open Sys2Proof.Machine Sys2Proof.Claims

/-! ## Helpers -/

/-- A running block with `bytes` at `pc` and further cells, wrap policy, page wrap on. -/
def st (pc : Word) (sp p : Byte) (bytes : List Byte) (cells : List (Word × Byte)) : State :=
  { State.reset with
    pc := pc
    sp := sp
    flags := unpackP p
    mem := cells.foldl (fun m cell => m.write cell.1 cell.2) (Memory.store [] pc bytes) }

/-- The same under the raise policy. -/
def raising (s : State) : State := { s with cfg := { s.cfg with stackPolicy := .raise } }

/-- The same with JMP_IND_PAGE_WRAP false. -/
def noPageWrap (s : State) : State := { s with cfg := { s.cfg with jmpIndPageWrap := false } }

/-- `PC`, `SP`, live `P` and `CYC` of a next state. -/
def look (r : Result State) : Option (Word × Byte × Byte × Nat) :=
  (Result.value? r).map fun t => (t.pc, t.sp, liveP t.flags, t.cyc)

/-- The memory of a next state. -/
def cells (r : Result State) : Option Memory := (Result.value? r).map State.mem

theorem next_of {α : Type} {r : Result α} (h : (Result.value? r).isSome = true) : ∃ v, r = .next v := by
  cases r with
  | next v => exact ⟨v, rfl⟩
  | fault f => cases h
  | refused q => cases h

theorem fault_of {α : Type} {r : Result α} {f : Fault} (h : Result.fault? r = some f) : r = .fault f := by
  cases r with
  | next v => cases h
  | fault g => cases h; rfl
  | refused q => cases h

/-! ## Decoding: words written out from R91 and R94 -/

theorem test_decode_brk : decode [0b00000000#8] = .instr .brk [] := by decide
theorem test_decode_bpl : decode [0b00010000#8, 0x02#8] = .instr (.bpl 0x02#8) [] := by decide
theorem test_decode_jsr : decode [0b00100000#8, 0x06#8, 0x80#8] = .instr (.jsr 0x8006#16) [] := by decide
theorem test_decode_bmi : decode [0b00110000#8, 0x7F#8] = .instr (.bmi 0x7F#8) [] := by decide
theorem test_decode_rti : decode [0b01000000#8] = .instr .rti [] := by decide
theorem test_decode_jmpAbs : decode [0b01001100#8, 0x34#8, 0x12#8] = .instr (.jmpAbs 0x1234#16) [] := by decide
theorem test_decode_bvc : decode [0b01010000#8, 0x80#8] = .instr (.bvc 0x80#8) [] := by decide
theorem test_decode_rts : decode [0b01100000#8] = .instr .rts [] := by decide
theorem test_decode_jmpInd : decode [0b01101100#8, 0xFF#8, 0x10#8] = .instr (.jmpInd 0x10FF#16) [] := by decide
theorem test_decode_bvs : decode [0b01110000#8, 0x10#8] = .instr (.bvs 0x10#8) [] := by decide
theorem test_decode_bcc : decode [0b10010000#8, 0xFE#8] = .instr (.bcc 0xFE#8) [] := by decide
theorem test_decode_bcs : decode [0b10110000#8, 0x02#8] = .instr (.bcs 0x02#8) [] := by decide
theorem test_decode_bne : decode [0b11010000#8, 0xF1#8] = .instr (.bne 0xF1#8) [] := by decide
theorem test_decode_beq : decode [0b11110000#8, 0x7F#8] = .instr (.beq 0x7F#8) [] := by decide
theorem test_decode_unsupported : decode [0xEA#8] = .unsupported 0xEA#8 := by decide
theorem test_decode_truncated : decode [0x4C#8, 0x34#8] = .truncated 0x4C#8 := by decide
theorem test_decode_no_bytes : decode [] = .noBytes := by decide
theorem test_fourteen_opcodes : opcodeBytes.length = 14 ∧ opcodeBytes.Nodup := by decide

/-! ## Well-formedness -/

/-- A table over three free bytes is allowed (R99). -/
theorem test_ext_domain_allowed : extDomainWellFormed [0xEA#8, 0x80#8, 0x0C#8] = true := by decide
/-- A table that redefines 0x00 is refused (R99). -/
theorem test_ext_domain_redefines : extDomainWellFormed [0xEA#8, 0x00#8] = false := by decide
/-- A table that lists a byte twice is refused: no partial function. -/
theorem test_ext_domain_twice : extDomainWellFormed [0xEA#8, 0xEA#8] = false := by decide
/-- The farthest targets of a branch at 0x4000 (R102). -/
theorem test_branch_reach : branchReachable 0x4000#16 0x3F82#16 = true ∧ branchReachable 0x4000#16 0x4081#16 = true := by decide
/-- One byte farther cannot be assembled (R102). -/
theorem test_branch_out_of_reach :
    branchReachable 0x4000#16 0x3F81#16 = false ∧ branchReachable 0x4000#16 0x4082#16 = false := by decide

/-! ## Jumps and subroutines -/

/-- J1. -/
theorem test_J1 : look (step (st 0x8000#16 0xFF#8 0x20#8 [0x4C#8, 0x34#8, 0x12#8] [])) =
    some (0x1234#16, 0xFF#8, 0x20#8, 3) := by decide
/-- J3: the operand bytes wrap from 0xFFFF to 0x0000. -/
theorem test_J3 : look (step (st 0xFFFE#16 0xFF#8 0x20#8 [0x4C#8, 0x78#8, 0x56#8] [])) =
    some (0x5678#16, 0xFF#8, 0x20#8, 3) := by decide

/-- The pointer of J6 and J7. -/
def pointer : State :=
  st 0xC000#16 0xFF#8 0x20#8 [0x6C#8, 0xFF#8, 0x10#8] [(0x10FF#16, 0x00#8), (0x1000#16, 0xC1#8), (0x1100#16, 0xC2#8)]

/-- J6: page wrap on. -/
theorem test_J6 : look (step pointer) = some (0xC100#16, 0xFF#8, 0x20#8, 5) := by decide
/-- J7: page wrap off. -/
theorem test_J7 : look (step (noPageWrap pointer)) = some (0xC200#16, 0xFF#8, 0x20#8, 5) := by decide

/-- The call of S1. -/
def call : State := st 0x8000#16 0xFF#8 0x20#8 [0x20#8, 0x06#8, 0x80#8] [(0x8006#16, 0x60#8)]

/-- S1, registers. -/
theorem test_S1 : look (step call) = some (0x8006#16, 0xFD#8, 0x20#8, 6) := by decide
/-- S10: a `JSR` in the stack page reads its operand before the pushes overwrite it, and pushes 0x01 over 0xFF. -/
theorem test_S10 :
    look (step (st 0x01FD#16 0xFF#8 0x20#8 [0x20#8, 0x34#8, 0x12#8] [])) = some (0x1234#16, 0xFD#8, 0x20#8, 6) ∧
    cells (step (st 0x01FD#16 0xFF#8 0x20#8 [0x20#8, 0x34#8, 0x12#8] [])) =
      some [(0x01FD, 0x20#8), (0x01FE, 0xFF#8), (0x01FF, 0x01#8)] := by decide
/-- T1. -/
theorem test_T1 :
    look (step (st 0x8006#16 0xFD#8 0x20#8 [0x60#8] [(0x01FE#16, 0x02#8), (0x01FF#16, 0x80#8)])) =
      some (0x8003#16, 0xFF#8, 0x20#8, 6) := by decide
/-- T4: the pulled word straddles the wrap. -/
theorem test_T4 :
    look (step (st 0x8006#16 0xFE#8 0x20#8 [0x60#8] [(0x01FF#16, 0x33#8), (0x0100#16, 0x44#8)])) =
      some (0x4434#16, 0x00#8, 0x20#8, 6) := by decide

/-! ## The trap and the return from it -/

/-- The trap of K1, with an `RTI` at its handler. -/
def trap : State :=
  st 0xC100#16 0xFD#8 0xA3#8 [0x00#8] [(0xFFFE#16, 0x00#8), (0xFFFF#16, 0xD0#8), (0xD000#16, 0x40#8)]

/-- K1: the three pushed bytes, `I` set, the vector. -/
theorem test_K1 :
    look (step trap) = some (0xD000#16, 0xFA#8, 0xA7#8, 7) ∧
    cells (step trap) = some
      [(0x01FB, 0xB3#8), (0x01FC, 0x02#8), (0x01FD, 0xC1#8), (0xD000, 0x40#8), (0xFFFF, 0xD0#8)] := by decide
/-- K4: `BRK` at 0xFFFE reads its own opcode byte as the low byte of the vector; the resume address wraps to 0x0000. -/
theorem test_K4 : look (step (st 0xFFFE#16 0xFD#8 0x20#8 [0x00#8] [(0xFFFF#16, 0x00#8)])) =
    some (0x0000#16, 0xFA#8, 0x24#8, 7) := by decide
/-- I1. -/
theorem test_I1 :
    look (step (st 0xD000#16 0xFA#8 0x24#8 [0x40#8] [(0x01FB#16, 0xB3#8), (0x01FC#16, 0x02#8), (0x01FD#16, 0xC1#8)])) =
      some (0xC102#16, 0xFD#8, 0xA3#8, 6) := by decide
/-- I3: no increment, bit 4 ignored. -/
theorem test_I3 :
    look (step (st 0xD000#16 0xFA#8 0x20#8 [0x40#8] [(0x01FB#16, 0xFF#8), (0x01FC#16, 0xFF#8), (0x01FD#16, 0xFF#8)])) =
      some (0xFFFF#16, 0xFD#8, 0xEF#8, 6) := by decide

/-! ## Branches: the examples of R191 to R198, and B2 to B16 -/

theorem test_bpl_taken : look (step (st 0x02FE#16 0xFF#8 0x6F#8 [0x10#8, 0x02#8] [])) =
    some (0x0302#16, 0xFF#8, 0x6F#8, 3) := by decide
theorem test_bpl_not : look (step (st 0x4000#16 0xFF#8 0xA0#8 [0x10#8, 0x10#8] [])) =
    some (0x4002#16, 0xFF#8, 0xA0#8, 2) := by decide
theorem test_bmi_taken : look (step (st 0x4000#16 0xFF#8 0xA0#8 [0x30#8, 0x7F#8] [])) =
    some (0x4081#16, 0xFF#8, 0xA0#8, 3) := by decide
theorem test_bmi_not : look (step (st 0x4000#16 0xFF#8 0x20#8 [0x30#8, 0x10#8] [])) =
    some (0x4002#16, 0xFF#8, 0x20#8, 2) := by decide
theorem test_bvc_taken : look (step (st 0x4000#16 0xFF#8 0xAF#8 [0x50#8, 0x80#8] [])) =
    some (0x3F82#16, 0xFF#8, 0xAF#8, 4) := by decide
theorem test_bvc_not : look (step (st 0x4000#16 0xFF#8 0x60#8 [0x50#8, 0x10#8] [])) =
    some (0x4002#16, 0xFF#8, 0x60#8, 2) := by decide
theorem test_bvs_taken : look (step (st 0x40F0#16 0xFF#8 0x60#8 [0x70#8, 0x10#8] [])) =
    some (0x4102#16, 0xFF#8, 0x60#8, 4) := by decide
theorem test_bvs_not : look (step (st 0x4000#16 0xFF#8 0x20#8 [0x70#8, 0x10#8] [])) =
    some (0x4002#16, 0xFF#8, 0x20#8, 2) := by decide
theorem test_bcc_taken : look (step (st 0x0200#16 0xFF#8 0xEE#8 [0x90#8, 0xFE#8] [])) =
    some (0x0200#16, 0xFF#8, 0xEE#8, 3) := by decide
theorem test_bcc_not : look (step (st 0x4000#16 0xFF#8 0x21#8 [0x90#8, 0x10#8] [])) =
    some (0x4002#16, 0xFF#8, 0x21#8, 2) := by decide
theorem test_bcs_taken : look (step (st 0x02F8#16 0xFF#8 0x21#8 [0xB0#8, 0x02#8] [])) =
    some (0x02FC#16, 0xFF#8, 0x21#8, 3) := by decide
theorem test_bcs_not : look (step (st 0x4000#16 0xFF#8 0x20#8 [0xB0#8, 0x10#8] [])) =
    some (0x4002#16, 0xFF#8, 0x20#8, 2) := by decide
theorem test_bne_taken : look (step (st 0x0302#16 0xFF#8 0xED#8 [0xD0#8, 0xF1#8] [])) =
    some (0x02F5#16, 0xFF#8, 0xED#8, 4) := by decide
theorem test_bne_not : look (step (st 0x4000#16 0xFF#8 0x22#8 [0xD0#8, 0x10#8] [])) =
    some (0x4002#16, 0xFF#8, 0x22#8, 2) := by decide
theorem test_beq_taken : look (step (st 0xFFF0#16 0xFF#8 0x22#8 [0xF0#8, 0x7F#8] [])) =
    some (0x0071#16, 0xFF#8, 0x22#8, 4) := by decide
theorem test_beq_not : look (step (st 0x4000#16 0xFF#8 0x20#8 [0xF0#8, 0x10#8] [])) =
    some (0x4002#16, 0xFF#8, 0x20#8, 2) := by decide

/-! ## Faults: S7, T5, K7, I6, and a byte outside the map -/

theorem test_S7 : Result.fault? (step (raising { call with sp := 0x00#8 })) =
    some (.stackBoundary .overflow 0x00#8) := by decide
theorem test_T5 : Result.fault? (step (raising (st 0x8006#16 0xFF#8 0x20#8 [0x60#8] []))) =
    some (.stackBoundary .underflow 0xFF#8) := by decide
theorem test_K7 : Result.fault? (step (raising { trap with sp := 0x02#8 })) =
    some (.stackBoundary .overflow 0x00#8) := by decide
theorem test_I6 : Result.fault? (step (raising (st 0xD000#16 0xFD#8 0x20#8 [0x40#8] []))) =
    some (.stackBoundary .underflow 0xFF#8) := by decide

/-- An opcode byte outside the map. -/
def unsupported : State := st 0x8000#16 0xFF#8 0x20#8 [0xEA#8] []

theorem test_unsupported : Result.fault? (step unsupported) = some (.unsupportedOpcode 0xEA#8 0x8000#16) := by decide

/-! ## Flags: F-8, F-14 -/

theorem test_F8 : packP false ⟨true, false, false, false, true, true⟩ = 0xA3#8 ∧
    packP true ⟨true, false, false, false, true, true⟩ = 0xB3#8 := by decide
theorem test_F14 : unpackP 0xC3#8 = ⟨true, true, false, false, true, true⟩ ∧ liveP (unpackP 0xC3#8) = 0xE3#8 := by decide

/-! ## Reset, the placement of a word, the host -/

/-- The start state of H-1. -/
def beforeStart : State := { State.powerOn with mem := [(0xFFFD, 0x80#8)] }

/-- The register and memory state a host operation leaves. -/
def after (r : Result (HostReply × State)) : Option (HostReply × Word × Byte × Byte × Nat) :=
  (Result.value? r).map fun (reply, t) => (reply, t.pc, t.sp, liveP t.flags, t.cyc)

/-- H-1: `PC` from the vector, `CYC` 0. -/
theorem test_H1 : after (hostCall [] (.start StartInputs.standard) beforeStart) =
    some (.done, 0x8000#16, 0xFD#8, 0x24#8, 0) := by decide
/-- H-2 and H-3. -/
theorem test_H2_H3 :
    Result.fault? (hostCall [] (.start StartInputs.standard) State.reset) = some .alreadyStarted ∧
    Result.fault? (hostCall [] .execute beforeStart) = some .notStarted := by decide
/-- H-4 and H-7, as sessions. -/
theorem test_H4_H7 :
    (hostSession [] [.cpuSetRegister (.p 0xFF#8), .cpuRegister .p] State.reset).1 =
      [.reply .done, .reply (.byte 0xEF#8)] ∧
    (hostSession [] [.cpuSetRegister (.p 0x20#8), .cpuSetFlag .carry, .cpuRegister .p] State.reset).1 =
      [.reply .done, .reply .done, .reply (.byte 0x21#8)] := by decide
/-- H-6, H-10, H-11 in one session. -/
theorem test_H6_H10_H11 :
    (hostSession [] [.cpuSetFlag .brk, .cpuFlag .brk, .cpuPcSet 0xC000#16, .cpuRegister .pc, .memorySet 0x01FF#16 0xAB#8,
      .memoryFetch 0x01FF#16] State.reset).1 =
      [.reply .done, .reply (.bit false), .reply .done, .reply (.word 0xC000#16), .reply .done, .reply (.byte 0xAB#8)] := by
  decide
/-- K-3 and K-4 through the host. -/
theorem test_K3_K4 :
    (hostSession [] [.cpuSetRegister (.sp 0xFF#8), .cpuPushWord 0x1234#16, .memoryFetch 0x01FF#16, .memoryFetch 0x01FE#16,
      .cpuPullWord] State.reset).1 =
      [.reply .done, .reply .done, .reply (.byte 0x12#8), .reply (.byte 0x34#8), .reply (.word 0x1234#16)] := by decide
/-- A fault is recorded and reported again. -/
theorem test_fault_is_final :
    (hostSession [] [.execute, .cpuPcSet 0x9000#16, .execute] unsupported).1 =
      [.fault (.unsupportedOpcode 0xEA#8 0x8000#16), .fault (.unsupportedOpcode 0xEA#8 0x8000#16),
        .fault (.unsupportedOpcode 0xEA#8 0x8000#16)] := by decide
/-- The step reports its cycles and no signal (R125). -/
theorem test_execute_reports : after (hostCall [] .execute call) =
    some (.stepped 6 none, 0x8006#16, 0xFD#8, 0x20#8, 6) := by decide
/-- A table word placed after reset is the next instruction that runs. -/
theorem test_withFetchWord : look (step (State.reset.withFetchWord 24 0x12344C)) =
    some (0x1234#16, 0xFD#8, 0x24#8, 3) := by decide
/-- The bus accesses of J6, in order. -/
theorem test_J6_accesses : stepAccesses pointer =
    [.read 0xC000#16 0x6C#8, .read 0xC001#16 0xFF#8, .read 0xC002#16 0x10#8, .read 0x10FF#16 0x00#8,
      .read 0x1000#16 0xC1#8] := by decide
/-- The bus accesses of K7: two writes, then the fault. -/
theorem test_K7_accesses : stepAccesses (raising { trap with sp := 0x02#8 }) =
    [.read 0xC100#16 0x00#8, .write 0x0102#16 0xC1#8, .write 0x0101#16 0x02#8] := by decide

/-- A refused `start()` leaves the block as it was, and a later one succeeds (log 31). -/
theorem test_refused_start_goes_on :
    (hostSession [] [.start { StartInputs.standard with cfg := { Config.standard with undocLevel := .tierFull } },
      .start StartInputs.standard, .cpuPcGet] beforeStart).1 =
      [.refused (.undocLevelWithoutTable .tierFull), .reply .done, .reply (.word 0x8000#16)] := by decide
/-- The six flag names read six different flags (R129). -/
theorem test_flag_names :
    (hostSession [] [.cpuSetRegister (.p 0x01#8), .cpuFlag .carry, .cpuFlag .zero, .cpuSetRegister (.p 0x02#8),
      .cpuFlag .carry, .cpuFlag .zero] State.reset).1 =
      [.reply .done, .reply (.bit true), .reply (.bit false), .reply .done, .reply (.bit false), .reply (.bit true)] := by decide

/-! ## Witnesses: concrete inputs that meet the hypotheses of the statements, each clause at a boundary -/

theorem running_call : call.Running := ⟨by decide, rfl, rfl⟩
theorem running_trap : trap.Running := ⟨by decide, rfl, rfl⟩
theorem running_unsupported : unsupported.Running := ⟨by decide, rfl, rfl⟩

/-- A return instruction of one byte at 0x8006. -/
def ret (opcode sp : Byte) : State := st 0x8006#16 sp 0x20#8 [opcode] []

/-- `JMP` Absolute to itself at 0x1234 (J2). -/
def spin : State := st 0x1234#16 0xFF#8 0x20#8 [0x4C#8, 0x34#8, 0x12#8] []

theorem witness_DecodeEncodeIsIdentity :
    Instr.wellFormed (.jmpAbs 0xFFFF#16) = true ∧ Instr.wellFormed (.bpl 0x80#8) = true ∧ Instr.wellFormed .brk = true := by
  decide
theorem witness_DecodeReadsEveryByte :
    decode [0x4C#8, 0x34#8, 0x12#8, 0xEA#8] = .instr (.jmpAbs 0x1234#16) [0xEA#8] ∧
    decode [0x60#8] = .instr .rts [] := by decide
theorem witness_DecoderCoversExactlyTheMap :
    0x00#8 ∈ mapBytes ∧ 0xF0#8 ∈ mapBytes ∧ 0x01#8 ∉ mapBytes ∧ 0xFF#8 ∉ mapBytes := by decide
theorem witness_StepRunsDecodedInstruction :
    call.started = true ∧ call.fault = none ∧
    decode [call.read call.pc, call.read (call.pc + 1#16), call.read (call.pc + 2#16)] = .instr (.jsr 0x8006#16) [] := by
  decide
theorem witness_ExtensionTableIsConservative : trap.read trap.pc ∈ mapBytes ∧ call.read call.pc ∈ mapBytes := by decide

/-- A table with a descriptor of each operand count; each writes its operands to the zero page. -/
def table : ExtTable :=
  [(0xEA#8, ⟨0, fun _ _ _ s => .next (s, 2)⟩),
   (0x80#8, ⟨1, fun _ _ operands s => .next (s.setMem (s.mem.store 0x0010#16 operands), 3)⟩),
   (0x0C#8, ⟨2, fun _ _ operands s => .next (s.setMem (s.mem.store 0x0010#16 operands), 4)⟩)]

/-- A byte outside the map and outside the table. -/
def outside : State := st 0x8000#16 0xFF#8 0x20#8 [0x02#8] []

theorem witness_UnsupportedOpcodeStopsTheStep :
    outside.started = true ∧ outside.fault = none ∧ outside.read outside.pc ∉ mapBytes ∧
    ∀ d, (outside.read outside.pc, d) ∉ table :=
  ⟨rfl, rfl, by decide, fun _ h =>
    absurd (List.mem_map_of_mem (f := Prod.fst) h) (by show ¬ (outside.read outside.pc ∈ [0xEA#8, 0x80#8, 0x0C#8]); decide)⟩

theorem witness_ExtensionDescriptorRunsInStages_none :
    ExtTable.wf table = true ∧ unsupported.started = true ∧ unsupported.fault = none ∧
    ∃ d, (unsupported.read unsupported.pc, d) ∈ table ∧ d.operandBytes.val = 0 ∧
      d.action unsupported.pc 0x8001#16 [] { unsupported with pc := 0x8001#16 } =
        .next ({ unsupported with pc := 0x8001#16 }, 2) :=
  ⟨by decide, rfl, rfl, _, List.mem_cons_self, rfl, rfl⟩

/-- The two-operand descriptor of the table: `PC` past it, the operands where its action puts them, four cycles. -/
theorem witness_ExtensionDescriptorRunsInStages_two :
    look (stepWith table (st 0x8000#16 0xFF#8 0x20#8 [0x0C#8, 0x11#8, 0x22#8] [])) =
      some (0x8003#16, 0xFF#8, 0x20#8, 4) ∧
    cells (stepWith table (st 0x8000#16 0xFF#8 0x20#8 [0x0C#8, 0x11#8, 0x22#8] [])) =
      some [(0x0010, 0x11#8), (0x0011, 0x22#8), (0x8000, 0x0C#8), (0x8001, 0x11#8), (0x8002, 0x22#8)] := by decide

/-- Two different states with the same three bytes at `PC`. -/
theorem witness_FetchDependsOnThreeBytes :
    let t := { (call.write 0x8003#16 0x77#8) with sp := 0x12#8 }
    t.pc = call.pc ∧ t.read call.pc = call.read call.pc ∧ t.read (call.pc + 1#16) = call.read (call.pc + 1#16) ∧
      t.read (call.pc + 2#16) = call.read (call.pc + 2#16) ∧ t.read 0x8003#16 ≠ call.read 0x8003#16 := by decide
theorem witness_ResolverAgreesWithExecution :
    fetch call = some (.jsr 0x8006#16) ∧ fetch pointer = some (.jmpInd 0x10FF#16) ∧ fetch trap = some .brk ∧
    Instr.mode (.jsr 0x8006#16) = .absolute ∧ Instr.mode (.jmpInd 0x10FF#16) = .indirect ∧
    (∃ t, exec (.jsr 0x8006#16) call = .next t) ∧ (∃ t, exec (.jmpInd 0x10FF#16) pointer = .next t) :=
  ⟨by decide, by decide, by decide, rfl, rfl, next_of (by decide), next_of (by decide)⟩
theorem witness_JmpIndirectOutcome :
    (pointer.cfg.jmpIndPageWrap = true ∧ (0x10FF#16 : Word).toNat % 256 = 255) ∧
    (noPageWrap pointer).cfg.jmpIndPageWrap = false ∧ (0x10FE#16 : Word).toNat % 256 ≠ 255 := by decide

/-- Every pointer under wrap, and the lowest free pointer of two pushes and of three under raise. -/
theorem witness_JsrOutcome_BrkOutcome :
    { call with sp := 0x00#8 }.cfg.stackPolicy = .wrap ∧
    (raising { call with sp := 0x02#8 }).cfg.stackPolicy = .raise ∧ 2 ≤ (raising { call with sp := 0x02#8 }).sp.toNat ∧
    3 ≤ (raising { trap with sp := 0x03#8 }).sp.toNat := by decide
/-- The highest free pointer of two pulls and of three under raise. -/
theorem witness_RtsOutcome_RtiOutcome :
    (raising { call with sp := 0xFD#8 }).sp.toNat ≤ 0xFD ∧ (raising { trap with sp := 0xFC#8 }).sp.toNat ≤ 0xFC ∧
    call.cfg.stackPolicy = .wrap := by decide

/-- A branch on carry set, with `C` = 1, and with `C` = 0. -/
def carrySet (pc : Word) : State := st pc 0xFF#8 0x21#8 [] []
def carryClear (pc : Word) : State := st pc 0xFF#8 0x20#8 [] []

theorem witness_BranchOutcome :
    branchCase (.bcs 0x10#8) = some (.carry, true, 0x10#8) ∧ branchCase (.bpl 0x10#8) = some (.negative, false, 0x10#8) ∧
    (carrySet 0x4000#16).flags.get .carry = true ∧ (carryClear 0x4000#16).flags.get .carry ≠ true := by decide
/-- Each offset of the corner cases is taken somewhere, on both sides of its page boundary. -/
theorem witness_BranchCornerCases :
    look (exec (.bcs 0x00#8) (carrySet 0x4000#16)) = some (0x4002#16, 0xFF#8, 0x21#8, 3) ∧
    look (exec (.bcs 0xFE#8) (carrySet 0x4000#16)) = some (0x4000#16, 0xFF#8, 0x21#8, 3) ∧
    look (exec (.bcs 0xFE#8) (carrySet 0x40FE#16)) = some (0x40FE#16, 0xFF#8, 0x21#8, 4) ∧
    look (exec (.bcs 0xFF#8) (carrySet 0x4000#16)) = some (0x4001#16, 0xFF#8, 0x21#8, 3) ∧
    look (exec (.bcs 0x80#8) (carrySet 0x407E#16)) = some (0x4000#16, 0xFF#8, 0x21#8, 3) ∧
    look (exec (.bcs 0x80#8) (carrySet 0x407D#16)) = some (0x3FFF#16, 0xFF#8, 0x21#8, 4) ∧
    look (exec (.bcs 0x7F#8) (carrySet 0x407E#16)) = some (0x40FF#16, 0xFF#8, 0x21#8, 3) ∧
    look (exec (.bcs 0x7F#8) (carrySet 0x407F#16)) = some (0x4100#16, 0xFF#8, 0x21#8, 4) ∧
    look (exec (.bcs 0x7F#8) (carrySet 0x40FE#16)) = some (0x417F#16, 0xFF#8, 0x21#8, 3) := by
  refine ⟨?_, ?_, ?_, ?_, ?_, ?_, ?_, ?_, ?_⟩ <;> decide

/-- Each pointer at which an instruction faults under raise, and the next one, at which it does not. -/
theorem witness_StackBoundaryFaultsExactly :
    (raising trap).cfg.stackPolicy = .raise ∧
    Result.fault? (exec (.jsr 0#16) (raising { trap with sp := 0x01#8 })) = some (.stackBoundary .overflow 0x00#8) ∧
    Result.fault? (exec (.jsr 0#16) (raising { trap with sp := 0x02#8 })) = none ∧
    Result.fault? (exec .brk (raising { trap with sp := 0x02#8 })) = some (.stackBoundary .overflow 0x00#8) ∧
    Result.fault? (exec .brk (raising { trap with sp := 0x03#8 })) = none ∧
    Result.fault? (exec .rts (raising { trap with sp := 0xFE#8 })) = some (.stackBoundary .underflow 0xFF#8) ∧
    Result.fault? (exec .rts (raising { trap with sp := 0xFD#8 })) = none ∧
    Result.fault? (exec .rti (raising { trap with sp := 0xFD#8 })) = some (.stackBoundary .underflow 0xFF#8) ∧
    Result.fault? (exec .rti (raising { trap with sp := 0xFC#8 })) = none := by decide
theorem witness_WrapPolicyNeverFaults : { call with sp := 0x00#8 }.cfg.stackPolicy = .wrap := by decide
theorem witness_OnlyStackBoundaryFaults :
    exec (.jsr 0x8006#16) (raising { call with sp := 0x00#8 }) = .fault (.stackBoundary .overflow 0x00#8) ∧
    exec .rti (raising { call with sp := 0xFF#8 }) = .fault (.stackBoundary .underflow 0xFF#8) :=
  ⟨fault_of (by decide), fault_of (by decide)⟩
theorem witness_StepFaultClassification :
    (unsupported.Running ∧ step unsupported = .fault (.unsupportedOpcode 0xEA#8 0x8000#16)) ∧
    ((raising { trap with sp := 0x02#8 }).Running ∧
      step (raising { trap with sp := 0x02#8 }) = .fault (.stackBoundary .overflow 0x00#8)) ∧
    ((raising (st 0xD000#16 0xFD#8 0x20#8 [0x40#8] [])).Running ∧
      step (raising (st 0xD000#16 0xFD#8 0x20#8 [0x40#8] [])) = .fault (.stackBoundary .underflow 0xFF#8)) :=
  ⟨⟨running_unsupported, fault_of (by decide)⟩, ⟨running_trap, fault_of (by decide)⟩,
    ⟨⟨by decide, rfl, rfl⟩, fault_of (by decide)⟩⟩

/-- Next states for the whole-machine statements: of the trap, of the return from it, and of an instruction that is neither. -/
theorem witness_frames :
    (∃ t, exec .brk trap = .next t) ∧ (∃ t, exec .rti trap = .next t) ∧ (∃ t, exec (.bne 0x10#8) trap = .next t) ∧
    (∃ t, exec (.jsr 0x8006#16) call = .next t) ∧ ¬ inStackPage 0x0200#16 ∧ inStackPage 0x01FF#16 ∧ ¬ inStackPage 0x00FF#16 :=
  ⟨next_of (by decide), next_of (by decide), next_of (by decide), next_of (by decide),
    by simp [inStackPage], by simp [inStackPage], by simp [inStackPage]⟩
theorem witness_StepKeepsRunning : trap.Running ∧ ∃ t, step trap = .next t := ⟨running_trap, next_of (by decide)⟩
theorem witness_SpinChangesOnlyCyc : spin.Running ∧ spin.Spins ∧ ∃ t, Host.Core.run core 2 spin = .next t :=
  ⟨⟨by decide, rfl, rfl⟩, by unfold State.Spins; decide, ⟨{ spin with cyc := 6 }, rfl⟩⟩

/-- Each clause of the four primitives at its boundary pointer. -/
theorem witness_PushOutcome :
    ((raising { call with sp := 0x00#8 }).cfg.stackPolicy = .raise ∧ (raising { call with sp := 0x00#8 }).sp = 0x00#8) ∧
    ¬ ((raising { call with sp := 0x01#8 }).cfg.stackPolicy = .raise ∧ (raising { call with sp := 0x01#8 }).sp = 0x00#8) ∧
    ¬ ({ call with sp := 0x00#8 }.cfg.stackPolicy = .raise ∧ { call with sp := 0x00#8 }.sp = 0x00#8) ∧ call.Running :=
  ⟨by decide, by decide, by decide, running_call⟩
theorem witness_PullOutcome :
    ((raising call).cfg.stackPolicy = .raise ∧ (raising call).sp = 0xFF#8) ∧
    ¬ ((raising { call with sp := 0xFE#8 }).cfg.stackPolicy = .raise ∧ (raising { call with sp := 0xFE#8 }).sp = 0xFF#8) ∧
    ¬ (call.cfg.stackPolicy = .raise ∧ call.sp = 0xFF#8) ∧ call.Running :=
  ⟨by decide, by decide, by decide, running_call⟩
theorem witness_PushWordOutcome_WordRoundTrip_HostStackOps :
    (call.Running ∧ call.cfg.stackPolicy = .wrap) ∧
    ((raising { call with sp := 0x02#8 }).Running ∧ 2 ≤ (raising { call with sp := 0x02#8 }).sp.toNat) ∧
    ((raising { call with sp := 0x01#8 }).cfg.stackPolicy = .raise ∧ (raising { call with sp := 0x01#8 }).sp.toNat < 2) ∧
    ((raising { call with sp := 0x00#8 }).Running ∧ (raising { call with sp := 0x00#8 }).sp = 0x00#8) ∧
    ((raising call).Running ∧ (raising call).sp = 0xFF#8) :=
  ⟨⟨running_call, rfl⟩, ⟨running_call, by decide⟩, by decide, ⟨running_call, rfl⟩, ⟨running_call, rfl⟩⟩
theorem witness_PullWordOutcome :
    (raising { call with sp := 0xFD#8 }).sp.toNat ≤ 0xFD ∧
    ((raising { call with sp := 0xFE#8 }).cfg.stackPolicy = .raise ∧ 0xFE ≤ (raising { call with sp := 0xFE#8 }).sp.toNat) ∧
    call.cfg.stackPolicy = .wrap := by decide
/-- Under wrap any row of pushes completes. -/
theorem pushAll_completes {s : State} (h : s.cfg.stackPolicy = .wrap) (bs : List Byte) : ∃ t, pushAll bs s = .next t := by
  induction bs generalizing s with
  | nil => exact ⟨s, rfl⟩
  | cons b rest ih =>
    simp only [pushAll, push_of_free (pushBlocked_of_wrap h s.sp), andThen_next]
    exact ih (by simpa using h)

theorem witness_PushesThenPullsReverse :
    (∃ t, pushAll [0x11#8, 0x22#8, 0x33#8] { call with sp := 0x01#8 } = .next t) ∧
    (∃ t, pushAll [0x11#8, 0x22#8] (raising { call with sp := 0x02#8 }) = .next t) ∧
    (List.replicate 256 0x11#8).length ≤ 256 ∧ (∃ t, pushAll (List.replicate 256 0x11#8) call = .next t) :=
  ⟨next_of (by decide), next_of (by decide), List.length_replicate.le, pushAll_completes rfl _⟩
theorem witness_StackWordStraddleStaysInPage :
    { call with sp := 0x00#8 }.cfg.stackPolicy = .wrap ∧ { call with sp := 0x00#8 }.sp = 0x00#8 := by decide
theorem witness_CallReturnRoundTrip :
    call.Running ∧ fetch call = some (.jsr 0x8006#16) ∧ ∃ t, step call = .next t ∧ t.read 0x8006#16 = 0x60#8 := by
  refine ⟨running_call, by decide, ?_⟩
  obtain ⟨t, ht⟩ := next_of (r := step call) (by decide)
  refine ⟨t, ht, ?_⟩
  have h : (Result.value? (step call)).map (fun t => t.read 0x8006#16) = some 0x60#8 := by decide
  rw [ht] at h
  exact Option.some.inj h
theorem witness_TrapReturnRoundTrip :
    trap.Running ∧ trap.read trap.pc = 0x00#8 ∧ ∃ t, step trap = .next t ∧ t.read t.pc = 0x40#8 := by
  refine ⟨running_trap, by decide, ?_⟩
  obtain ⟨t, ht⟩ := next_of (r := step trap) (by decide)
  refine ⟨t, ht, ?_⟩
  have h : (Result.value? (step trap)).map (fun t => t.read t.pc) = some 0x40#8 := by decide
  rw [ht] at h
  exact Option.some.inj h
theorem witness_NestedTrapsUnwind :
    (∃ t, execTimes .brk 1 trap = .next t) ∧ (∃ t, execTimes .brk 85 { trap with sp := 0xFF#8 } = .next t) :=
  ⟨next_of (by decide), next_of (by decide)⟩
theorem witness_PageCrossComparesPages :
    branchCase (.beq 0x7F#8) = some (.zero, true, 0x7F#8) ∧
    (st 0xFFF0#16 0xFF#8 0x22#8 [] []).flags.get .zero = true ∧
    pageCross (0xFFF0#16 + 2#16 + sext16 0x7F#8) (0xFFF0#16 + 2#16) = true ∧ pageCross 0x0302#16 0x0300#16 = false := by decide

theorem witness_StartOutcome :
    beforeStart.started = false ∧ beforeStart.fault = none ∧ StartInputs.standard.cfg.undocLevel = .tierNone ∧
    List.isEmpty table = false := by decide
theorem witness_LifecycleFaults :
    (call.fault = none ∧ call.started = true) ∧ (beforeStart.fault = none ∧ beforeStart.started = false) ∧
    HostOp.cpuPullByte ≠ .start StartInputs.standard := by decide
theorem witness_UndocLevelRefusedAtStart :
    beforeStart.started = false ∧ beforeStart.fault = none ∧
    { StartInputs.standard with cfg := { Config.standard with undocLevel := .tierFull } }.cfg.undocLevel ≠ .tierNone := by
  decide
theorem witness_FaultIsFinal :
    hostTurn [] .execute unsupported =
      (.fault (.unsupportedOpcode 0xEA#8 0x8000#16),
        { unsupported with fault := some (.unsupportedOpcode 0xEA#8 0x8000#16) }) := by decide
/-- The hypothesis of PcAccess, MemoryAccess, RegisterReads, RegisterWrites, FlagAccess and BusAccessesReplay. -/
theorem witness_running : State.reset.Running ∧ call.Running := ⟨⟨by decide, rfl, rfl⟩, running_call⟩
theorem witness_MemoryAccess_FlagAccess : (0x01FE#16 : Word) ≠ 0x01FF#16 ∧ FlagName.carry ≠ .brk ∧ FlagName.zero ≠ .carry := by
  decide
theorem witness_HostExecuteReports_HostOpsKeepRunning :
    (∃ t, step call = .next t) ∧ step unsupported = .fault (.unsupportedOpcode 0xEA#8 0x8000#16) ∧
    HostOp.cpuPullByte ≠ .execute ∧ call.Running ∧ ∃ x, hostCall [] .cpuPullByte call = .next x :=
  ⟨next_of (by decide), fault_of (by decide), by decide, running_call, next_of (by decide)⟩
/-- A state that can run, its instruction, and its pointer: what the statements about bus accesses ask for. -/
def standsAt (s : State) (i : Instr) (sp : Byte) : Prop := s.Running ∧ fetch s = some i ∧ s.sp = sp

theorem call_standsAt (sp : Byte) : standsAt (raising { call with sp := sp }) (.jsr 0x8006#16) sp :=
  ⟨running_call, (show fetch call = some (.jsr 0x8006#16) by decide), rfl⟩
theorem trap_standsAt (sp : Byte) : standsAt (raising { trap with sp := sp }) .brk sp :=
  ⟨running_trap, (show fetch trap = some .brk by decide), rfl⟩
theorem rts_standsAt (sp : Byte) : standsAt (raising (ret 0x60#8 sp)) .rts sp :=
  ⟨⟨(show (ret 0x60#8 0x00#8).mem.wf = true by decide), rfl, rfl⟩, (show fetch (ret 0x60#8 0x00#8) = some .rts by decide), rfl⟩
theorem rti_standsAt (sp : Byte) : standsAt (raising (ret 0x40#8 sp)) .rti sp :=
  ⟨⟨(show (ret 0x40#8 0x00#8).mem.wf = true by decide), rfl, rfl⟩, (show fetch (ret 0x40#8 0x00#8) = some .rti by decide), rfl⟩

/-- A branch, both jumps (the pointer at a page end, both settings), and the stack forms: under wrap at a pointer that wraps, and under
raise at the boundary pointer that is still free. -/
theorem witness_BusSequences :
    (standsAt (st 0x4000#16 0xFF#8 0x20#8 [0xB0#8, 0x10#8] []) (.bcs 0x10#8) 0xFF#8 ∧
      branchCase (.bcs 0x10#8) = some (.carry, true, 0x10#8)) ∧
    standsAt spin (.jmpAbs 0x1234#16) 0xFF#8 ∧
    standsAt pointer (.jmpInd 0x10FF#16) 0xFF#8 ∧
    standsAt (noPageWrap pointer) (.jmpInd 0x10FF#16) 0xFF#8 ∧
    (standsAt { call with sp := 0x00#8 } (.jsr 0x8006#16) 0x00#8 ∧ { call with sp := 0x00#8 }.cfg.stackPolicy = .wrap) ∧
    (standsAt { trap with sp := 0x01#8 } .brk 0x01#8 ∧ { trap with sp := 0x01#8 }.cfg.stackPolicy = .wrap) ∧
    (standsAt (ret 0x60#8 0xFF#8) .rts 0xFF#8 ∧ (ret 0x60#8 0xFF#8).cfg.stackPolicy = .wrap) ∧
    (standsAt (ret 0x40#8 0xFE#8) .rti 0xFE#8 ∧ (ret 0x40#8 0xFE#8).cfg.stackPolicy = .wrap) ∧
    (standsAt (raising { call with sp := 0x02#8 }) (.jsr 0x8006#16) 0x02#8 ∧ 2 ≤ (0x02#8 : Byte).toNat) ∧
    (standsAt (raising { trap with sp := 0x03#8 }) .brk 0x03#8 ∧ 3 ≤ (0x03#8 : Byte).toNat) ∧
    (standsAt (raising (ret 0x60#8 0xFD#8)) .rts 0xFD#8 ∧ (0xFD#8 : Byte).toNat ≤ 0xFD) ∧
    (standsAt (raising (ret 0x40#8 0xFC#8)) .rti 0xFC#8 ∧ (0xFC#8 : Byte).toNat ≤ 0xFC) :=
  ⟨⟨⟨⟨by decide, rfl, rfl⟩, by decide, rfl⟩, rfl⟩, ⟨⟨by decide, rfl, rfl⟩, by decide, rfl⟩,
    ⟨⟨by decide, rfl, rfl⟩, by decide, rfl⟩, ⟨⟨by decide, rfl, rfl⟩, by decide, rfl⟩,
    ⟨call_standsAt 0x00#8, rfl⟩, ⟨trap_standsAt 0x01#8, rfl⟩, ⟨rts_standsAt 0xFF#8, rfl⟩, ⟨rti_standsAt 0xFE#8, rfl⟩,
    ⟨call_standsAt _, by decide⟩, ⟨trap_standsAt _, by decide⟩, ⟨rts_standsAt _, by decide⟩, ⟨rti_standsAt _, by decide⟩⟩

/-- Every pointer of every clause, under raise (S7, S8, K7, T5, T6, I6 among them). -/
theorem witness_BusSequencesCutShort :
    (raising call).cfg.stackPolicy = .raise ∧ (raising trap).cfg.stackPolicy = .raise ∧
    (raising (ret 0x60#8 0xFF#8)).cfg.stackPolicy = .raise ∧ (raising (ret 0x40#8 0xFF#8)).cfg.stackPolicy = .raise ∧
    standsAt (raising { call with sp := 0x00#8 }) (.jsr 0x8006#16) 0x00#8 ∧
    standsAt (raising { call with sp := 0x01#8 }) (.jsr 0x8006#16) 0x01#8 ∧
    standsAt (raising { trap with sp := 0x00#8 }) .brk 0x00#8 ∧
    standsAt (raising { trap with sp := 0x01#8 }) .brk 0x01#8 ∧
    standsAt (raising { trap with sp := 0x02#8 }) .brk 0x02#8 ∧
    standsAt (raising (ret 0x60#8 0xFF#8)) .rts 0xFF#8 ∧
    standsAt (raising (ret 0x60#8 0xFE#8)) .rts 0xFE#8 ∧
    standsAt (raising (ret 0x40#8 0xFF#8)) .rti 0xFF#8 ∧
    standsAt (raising (ret 0x40#8 0xFE#8)) .rti 0xFE#8 ∧
    standsAt (raising (ret 0x40#8 0xFD#8)) .rti 0xFD#8 :=
  ⟨rfl, rfl, rfl, rfl, call_standsAt _, call_standsAt _, trap_standsAt _, trap_standsAt _, trap_standsAt _, rts_standsAt _,
    rts_standsAt _, rti_standsAt _, rti_standsAt _, rti_standsAt _⟩

end Sys2Proof.Tests
end

section
/-! SUPPORT. What no instruction reads: a change of the state that the shared operations cannot see passes through `exec`
unchanged, and no instruction writes the configuration (R9, R28, R120 c). -/

namespace Sys2Proof.Machine

variable {α β : Type}

/-! Sequencing. -/

/-- Apply a function to the value of an answer. -/
def mapNext (g : α → β) (r : Result α) : Result β := andThen r fun v => .next (g v)

@[simp] theorem mapNext_next (g : α → β) (v : α) : mapNext g (.next v) = .next (g v) := rfl
@[simp] theorem mapNext_fault (g : α → β) (f : Fault) : mapNext g (.fault f) = .fault f := rfl
@[simp] theorem mapNext_refused (g : α → β) (q : Refusal) : mapNext g (.refused q) = .refused q := rfl

/-- What passes through both parts of a sequence passes through the sequence. -/
theorem andThen_mapNext {g : α → α} {g' : β → β} {r r' : Result α} {k k' : α → Result β} (hr : r' = mapNext g r)
    (hk : ∀ v, k' (g v) = mapNext g' (k v)) : andThen r' k' = mapNext g' (andThen r k) := by
  subst hr
  cases r with
  | next v => exact hk v
  | fault f => rfl
  | refused q => rfl

/-- Two functions that agree on the value of an answer map it alike. -/
theorem mapNext_congr {g g' : α → β} {r : Result α} (h : ∀ v, r = .next v → g v = g' v) : mapNext g r = mapNext g' r := by
  cases r with
  | next v => exact congrArg Host.Outcome.next (h v rfl)
  | fault f => rfl
  | refused q => rfl

/-! No instruction writes the configuration. -/

theorem pushWord_cfg {w : Word} {s t : State} (h : pushWord w s = .next t) : t.cfg = s.cfg := by
  obtain ⟨-, -, rfl⟩ := pushWord_eq_next h
  rfl

theorem pullWord_cfg {w : Word} {s t : State} (h : pullWord s = .next (w, t)) : t.cfg = s.cfg := by
  obtain ⟨-, -, -, rfl⟩ := pullWord_eq_next h
  rfl

theorem takeTrap_cfg {resume : Word} {s t : State} (h : takeTrap resume s = .next t) : t.cfg = s.cfg := by
  obtain ⟨s1, s2, h1, h2, rfl⟩ := takeTrap_eq_next h
  obtain ⟨-, rfl⟩ := push_eq_next h2
  exact (pushWord_cfg h1 :)

theorem returnFromTrap_cfg {s t : State} (h : returnFromTrap s = .next t) : t.cfg = s.cfg := by
  obtain ⟨b, s1, w, s2, h1, h2, rfl⟩ := returnFromTrap_eq_next h
  obtain ⟨-, -, rfl⟩ := pull_eq_next h1
  exact (pullWord_cfg h2 :)

theorem branch_cfg {name : FlagName} {sense : Bool} {rel8 : Byte} {s t : State} (h : branch name sense rel8 s = .next t) :
    t.cfg = s.cfg := by
  unfold branch at h
  split at h <;> cases h <;> rfl

/-- Every instruction that completes leaves the configuration as it was. -/
theorem exec_cfg {i : Instr} {s t : State} (h : exec i s = .next t) : t.cfg = s.cfg := by
  cases i with
  | brk => obtain ⟨u, hu, ht⟩ := andThen_eq_next h; cases ht; exact (takeTrap_cfg hu :)
  | rti => obtain ⟨u, hu, ht⟩ := andThen_eq_next h; cases ht; exact (returnFromTrap_cfg hu :)
  | jsr addr => obtain ⟨u, hu, ht⟩ := andThen_eq_next h; cases ht; exact (pushWord_cfg hu :)
  | rts => obtain ⟨⟨w, u⟩, hu, ht⟩ := andThen_eq_next h; cases ht; exact (pullWord_cfg hu :)
  | jmpAbs addr => cases h; rfl
  | jmpInd ptr => cases h; rfl
  | bpl r | bmi r | bvc r | bvs r | bcc r | bcs r | bne r | beq r => exact branch_cfg h

/-! Changes of the state that no instruction sees. -/

/-- The configuration with the two inputs no instruction reads at fixed values: equal when all the others are. -/
def readPart (c : Config) : Config := { c with undocLevel := .tierNone, decimalSupport := false }

/-- A change of the state that touches nothing an instruction reads, and that commutes with everything it writes. -/
structure Unobserved (g : State → State) : Prop where
  sp (s : State) : (g s).sp = s.sp
  pc (s : State) : (g s).pc = s.pc
  flags (s : State) : (g s).flags = s.flags
  mem (s : State) : (g s).mem = s.mem
  cfg (s : State) : readPart (g s).cfg = readPart s.cfg
  setSp (s : State) (b : Byte) : g (s.setSp b) = (g s).setSp b
  setPc (s : State) (w : Word) : g (s.setPc w) = (g s).setPc w
  setFlags (s : State) (f : Flags) : g (s.setFlags f) = (g s).setFlags f
  setMem (s : State) (m : Memory) : g (s.setMem m) = (g s).setMem m
  addCycles (s : State) (n : Nat) : g (s.addCycles n) = (g s).addCycles n

namespace Unobserved

variable {g : State → State} (hg : Unobserved g) (s : State)
include hg

/-- What depends on the read part of the configuration alone is not changed. -/
theorem cfg_eq {γ : Type} (k : Config → γ) (hk : ∀ c, k (readPart c) = k c) : k (g s).cfg = k s.cfg := by
  rw [← hk, hg.cfg, hk]

theorem pushBlocked_eq : pushBlocked (g s).cfg (g s).sp = pushBlocked s.cfg s.sp := by
  rw [hg.sp]
  exact hg.cfg_eq s (pushBlocked · s.sp) fun _ => rfl

theorem pullBlocked_eq : pullBlocked (g s).cfg (g s).sp = pullBlocked s.cfg s.sp := by
  rw [hg.sp]
  exact hg.cfg_eq s (pullBlocked · s.sp) fun _ => rfl

theorem read_eq (addr : Word) : (g s).read addr = s.read addr := by
  rw [State.read_def, hg.mem, ← State.read_def]

theorem write_comm (addr : Word) (v : Byte) : g (s.write addr v) = (g s).write addr v := by
  unfold State.write
  rw [hg.setMem, hg.mem]

theorem vector_eq (v : Word) : (g s).vector v = s.vector v := by
  unfold State.vector
  rw [hg.mem]

theorem advance_comm (m : Mode) : g (advance m s) = advance m (g s) := by
  unfold advance
  rw [hg.setPc, hg.pc]

theorem indirectTarget_eq (ptr : Word) : indirectTarget ptr (g s) = indirectTarget ptr s := by
  have hhigh : indirectHighAddr (g s).cfg ptr = indirectHighAddr s.cfg ptr :=
    hg.cfg_eq s (indirectHighAddr · ptr) fun _ => rfl
  unfold indirectTarget
  rw [hhigh, hg.read_eq, hg.read_eq]

theorem push_comm (b : Byte) : push b (g s) = mapNext g (push b s) := by
  unfold push
  rw [hg.pushBlocked_eq, hg.sp]
  split
  · rfl
  · rw [mapNext_next, hg.setSp, hg.write_comm]

theorem pull_comm : pull (g s) = mapNext (Prod.map id g) (pull s) := by
  unfold pull
  rw [hg.pullBlocked_eq, hg.sp]
  split
  · rfl
  · rw [mapNext_next, Prod.map_apply, hg.setSp, hg.read_eq, id]

theorem pushWord_comm (w : Word) : pushWord w (g s) = mapNext g (pushWord w s) :=
  andThen_mapNext (hg.push_comm s (hi w)) fun s1 => hg.push_comm s1 (lo w)

theorem pullWord_comm : pullWord (g s) = mapNext (Prod.map id g) (pullWord s) :=
  andThen_mapNext (hg.pull_comm s) fun (_, s1) => andThen_mapNext (hg.pull_comm s1) fun _ => rfl

theorem takeTrap_comm (resume : Word) : takeTrap resume (g s) = mapNext g (takeTrap resume s) := by
  refine andThen_mapNext (hg.pushWord_comm s resume) fun s1 => ?_
  rw [hg.flags]
  refine andThen_mapNext (hg.push_comm s1 _) fun s2 => ?_
  rw [mapNext_next, hg.setPc, ← hg.vector_eq, hg.setFlags, hg.flags]

theorem returnFromTrap_comm : returnFromTrap (g s) = mapNext g (returnFromTrap s) := by
  refine andThen_mapNext (hg.pull_comm s) fun (b, s1) => ?_
  refine andThen_mapNext (g := Prod.map id g) ?_ fun (w, s2) => ?_
  · exact hg.setFlags s1 (unpackP b) ▸ hg.pullWord_comm _
  · rw [mapNext_next, hg.setPc]; rfl

theorem branch_comm (name : FlagName) (sense : Bool) (rel8 : Byte) :
    branch name sense rel8 (g s) = mapNext g (branch name sense rel8 s) := by
  unfold branch
  simp only [hg.flags, hg.pc, ← hg.advance_comm]
  split
  · rw [mapNext_next, hg.addCycles, hg.setPc]
  · rw [mapNext_next, hg.addCycles]

theorem execBrk_comm : execBrk (g s) = mapNext g (execBrk s) := by
  unfold execBrk
  simp only [← hg.advance_comm, hg.pc]
  refine andThen_mapNext (hg.takeTrap_comm _ _) fun s2 => ?_
  rw [mapNext_next, hg.addCycles, hg.cfg_eq s Config.cycBrk fun _ => rfl]

theorem execRti_comm : execRti (g s) = mapNext g (execRti s) := by
  unfold execRti
  rw [← hg.advance_comm]
  refine andThen_mapNext (hg.returnFromTrap_comm _) fun s1 => ?_
  rw [mapNext_next, hg.addCycles, hg.cfg_eq s Config.cycRti fun _ => rfl]

theorem execJmpAbs_comm (addr : Word) : execJmpAbs addr (g s) = mapNext g (execJmpAbs addr s) := by
  unfold execJmpAbs
  rw [mapNext_next, hg.addCycles, hg.setPc, hg.advance_comm, hg.cfg_eq s Config.cycJmpAbs fun _ => rfl]

theorem execJmpInd_comm (ptr : Word) : execJmpInd ptr (g s) = mapNext g (execJmpInd ptr s) := by
  unfold execJmpInd
  rw [mapNext_next, hg.addCycles, hg.setPc, hg.advance_comm, hg.indirectTarget_eq, hg.cfg_eq s Config.cycJmpInd fun _ => rfl]

theorem execJsr_comm (addr : Word) : execJsr addr (g s) = mapNext g (execJsr addr s) := by
  unfold execJsr
  simp only [← hg.advance_comm, hg.pc]
  refine andThen_mapNext (hg.pushWord_comm _ _) fun s2 => ?_
  rw [mapNext_next, hg.addCycles, hg.setPc, hg.cfg_eq s Config.cycJsr fun _ => rfl]

theorem execRts_comm : execRts (g s) = mapNext g (execRts s) := by
  unfold execRts
  rw [← hg.advance_comm]
  refine andThen_mapNext (hg.pullWord_comm _) fun (w, s1) => ?_
  rw [mapNext_next, hg.addCycles, hg.setPc, hg.cfg_eq s Config.cycRts fun _ => rfl]
  rfl

/-- Noninterference: a change no instruction sees comes out of every instruction as it went in, whatever the outcome. -/
theorem exec_comm (i : Instr) : exec i (g s) = mapNext g (exec i s) := by
  cases i with
  | brk => exact hg.execBrk_comm s
  | rti => exact hg.execRti_comm s
  | jsr addr => exact hg.execJsr_comm s addr
  | rts => exact hg.execRts_comm s
  | jmpAbs addr => exact hg.execJmpAbs_comm s addr
  | jmpInd ptr => exact hg.execJmpInd_comm s ptr
  | bpl r | bmi r | bvc r | bvs r | bcc r | bcs r | bne r | beq r => exact hg.branch_comm s _ _ r

end Unobserved

/-! The two inert inputs. -/

/-- The state with the two inputs of R9 that no instruction reads at other values. -/
def State.setInert (level : UndocLevel) (decimal : Bool) (s : State) : State :=
  { s with cfg := { s.cfg with undocLevel := level, decimalSupport := decimal } }

theorem unobserved_setInert (level : UndocLevel) (decimal : Bool) : Unobserved (State.setInert level decimal) where
  sp _ := rfl
  pc _ := rfl
  flags _ := rfl
  mem _ := rfl
  cfg _ := rfl
  setSp _ _ := rfl
  setPc _ _ := rfl
  setFlags _ _ := rfl
  setMem _ _ := rfl
  addCycles _ _ := rfl

end Sys2Proof.Machine
end

section
/-! SUPPORT. The statements of the scope (00_scope.md), settled. -/

namespace Sys2Proof.Claims

open Sys2Proof.Machine

/-- Settles O27: the change of the two inputs passes through every instruction, and the configuration of the next state is
that of the state before. -/
theorem inertConfiguration : Obligations.InertConfiguration := by
  intro i s level decimal
  calc exec i (s.setInert level decimal)
      = mapNext (State.setInert level decimal) (exec i s) := (unobserved_setInert level decimal).exec_comm s i
    _ = mapNext (fun t => { t with cfg := { s.cfg with undocLevel := level, decimalSupport := decimal } }) (exec i s) :=
      mapNext_congr fun t ht => by rw [State.setInert, exec_cfg ht]

end Sys2Proof.Claims
end

section
/-! SUPPORT. The next state of each instruction, written out once: the branches always complete, the four stack instructions
complete when no push or pull meets the boundary (R172, R173, R180, R181, R190). -/

namespace Sys2Proof.Machine

/-! Stage one (R24): `PC` past the opcode byte and the operand bytes. -/

theorem advance_implied (s : State) : advance .implied s = s.setPc (s.pc + 1#16) := by
  rw [advance, Mode.operandBytes, nextPc_zero]

theorem advance_relative (s : State) : advance .relative s = s.setPc (s.pc + 2#16) := by
  rw [advance, Mode.operandBytes, nextPc_one]

theorem advance_absolute (s : State) : advance .absolute s = s.setPc (s.pc + 3#16) := by
  rw [advance, Mode.operandBytes, nextPc_two]

/-! The instructions. -/

/-- A branch always completes, and writes `PC` and `CYC` alone. -/
theorem branch_eq (name : FlagName) (sense : Bool) (rel8 : Byte) (s : State) :
    branch name sense rel8 s = .next { s with
      pc := if s.flags.get name = sense then relativeTarget s.pc rel8 else s.pc + 2#16
      cyc := s.cyc + branchCycles (decide (s.flags.get name = sense)) (pageCross (relativeTarget s.pc rel8) (s.pc + 2#16)) } := by
  unfold branch
  rw [advance_relative]
  by_cases ht : s.flags.get name = sense
  · simp only [if_pos ht, decide_eq_true ht, State.setPc_pc]; rfl
  · simp only [if_neg ht, decide_eq_false ht, State.setPc_pc]; rfl

/-- Everything a `JSR` that completes did (R172). -/
theorem execJsr_eq_next {addr : Word} {s t : State} (h : execJsr addr s = .next t) :
    pushBlocked s.cfg s.sp = false ∧ pushBlocked s.cfg (s.sp - 1#8) = false ∧
      t = { s with
        pc := addr
        sp := s.sp - 1#8 - 1#8
        cyc := s.cyc + s.cfg.cycJsr
        mem := (s.mem.write (stackAddr s.sp) (hi (s.pc + 2#16))).write (stackAddr (s.sp - 1#8)) (lo (s.pc + 2#16)) } := by
  have hret : s.pc + 3#16 - 1#16 = s.pc + 2#16 := by bv_omega
  simp only [execJsr, advance_absolute, State.setPc_pc, hret] at h
  obtain ⟨u, hu, ht⟩ := andThen_eq_next h
  obtain ⟨hb, hb', rfl⟩ := pushWord_eq_next hu
  cases ht
  exact ⟨by simpa using hb, by simpa using hb', by ext <;> simp⟩

/-- Everything an `RTS` that completes did (R173). -/
theorem execRts_eq_next {s t : State} (h : execRts s = .next t) :
    pullBlocked s.cfg s.sp = false ∧ pullBlocked s.cfg (s.sp + 1#8) = false ∧
      t = { s with
        pc := word (s.read (stackAddr (s.sp + 1#8 + 1#8))) (s.read (stackAddr (s.sp + 1#8))) + 1#16
        sp := s.sp + 1#8 + 1#8
        cyc := s.cyc + s.cfg.cycRts } := by
  obtain ⟨⟨w, u⟩, hu, ht⟩ := andThen_eq_next h
  obtain ⟨hb, hb', rfl, rfl⟩ := pullWord_eq_next hu
  cases ht
  exact ⟨by simpa using hb, by simpa using hb', by ext <;> simp [State.read_def]⟩

/-- Everything a `BRK` that completes did (R180, R216); the vector is read from the memory after the pushes. -/
theorem execBrk_eq_next {s t : State} (h : execBrk s = .next t) :
    pushBlocked s.cfg s.sp = false ∧ pushBlocked s.cfg (s.sp - 1#8) = false ∧ pushBlocked s.cfg (s.sp - 1#8 - 1#8) = false ∧
      ∃ m, m = ((s.mem.write (stackAddr s.sp) (hi (s.pc + 2#16))).write (stackAddr (s.sp - 1#8)) (lo (s.pc + 2#16))).write
          (stackAddr (s.sp - 1#8 - 1#8)) (packP true s.flags) ∧
        t = { s with
          pc := m.readWord brkVector
          sp := s.sp - 1#8 - 1#8 - 1#8
          flags := { s.flags with i := true }
          cyc := s.cyc + s.cfg.cycBrk
          mem := m } := by
  have hret : s.pc + 1#16 + 1#16 = s.pc + 2#16 := by bv_omega
  simp only [execBrk, advance_implied, State.setPc_pc, hret] at h
  obtain ⟨u, hu, ht⟩ := andThen_eq_next h
  obtain ⟨s1, s2, h1, h2, rfl⟩ := takeTrap_eq_next hu
  obtain ⟨hb, hb', rfl⟩ := pushWord_eq_next h1
  obtain ⟨hb'', rfl⟩ := push_eq_next h2
  cases ht
  exact ⟨by simpa using hb, by simpa using hb', by simpa using hb'', _, rfl, by ext <;> simp⟩

/-- Everything an `RTI` that completes did (R181, R220). -/
theorem execRti_eq_next {s t : State} (h : execRti s = .next t) :
    pullBlocked s.cfg s.sp = false ∧ pullBlocked s.cfg (s.sp + 1#8) = false ∧ pullBlocked s.cfg (s.sp + 1#8 + 1#8) = false ∧
      t = { s with
        pc := word (s.read (stackAddr (s.sp + 1#8 + 1#8 + 1#8))) (s.read (stackAddr (s.sp + 1#8 + 1#8)))
        sp := s.sp + 1#8 + 1#8 + 1#8
        flags := unpackP (s.read (stackAddr (s.sp + 1#8)))
        cyc := s.cyc + s.cfg.cycRti } := by
  obtain ⟨u, hu, ht⟩ := andThen_eq_next h
  obtain ⟨b, s1, w, s2, h1, h2, rfl⟩ := returnFromTrap_eq_next hu
  obtain ⟨hb, rfl, rfl⟩ := pull_eq_next h1
  obtain ⟨hb', hb'', rfl, rfl⟩ := pullWord_eq_next h2
  cases ht
  exact ⟨by simpa using hb, by simpa using hb', by simpa using hb'', by ext <;> simp [State.read_def]⟩

end Sys2Proof.Machine
end

section
/-! SUPPORT. What every instruction and every step keeps: the general registers, the lifecycle, canonical memory; and that
`CYC` never falls (R21, R37, R38, R41). -/

namespace Sys2Proof.Machine

variable {i : Instr} {s t : State}

/-! Fields that no instruction sees. A state that such a change leaves as it is has a next state that the change leaves as it is,
so the field that the change writes is kept. -/

theorem Unobserved.next_fixed {g : State → State} (hg : Unobserved g) (hs : g s = s) (h : exec i s = .next t) : g t = t := by
  have e := hg.exec_comm s i
  rw [hs, h, mapNext_next] at e
  exact (Host.Outcome.next.inj e).symm

/-- The state with other values in `A`, `X` and `Y`. -/
def State.setGeneral (a x y : Byte) (s : State) : State := { s with a := a, x := x, y := y }

theorem unobserved_setGeneral (a x y : Byte) : Unobserved (State.setGeneral a x y) where
  sp _ := rfl
  pc _ := rfl
  flags _ := rfl
  mem _ := rfl
  cfg _ := rfl
  setSp _ _ := rfl
  setPc _ _ := rfl
  setFlags _ _ := rfl
  setMem _ _ := rfl
  addCycles _ _ := rfl

theorem exec_general (h : exec i s = .next t) : t.a = s.a ∧ t.x = s.x ∧ t.y = s.y := by
  have e : t.setGeneral s.a s.x s.y = t := (unobserved_setGeneral s.a s.x s.y).next_fixed rfl h
  rw [← e]
  exact ⟨rfl, rfl, rfl⟩

/-- The state with another lifecycle: `STARTED` and the recorded fault. -/
def State.setLifecycle (started : Bool) (fault : Option Fault) (s : State) : State :=
  { s with started := started, fault := fault }

theorem unobserved_setLifecycle (started : Bool) (fault : Option Fault) : Unobserved (State.setLifecycle started fault) where
  sp _ := rfl
  pc _ := rfl
  flags _ := rfl
  mem _ := rfl
  cfg _ := rfl
  setSp _ _ := rfl
  setPc _ _ := rfl
  setFlags _ _ := rfl
  setMem _ _ := rfl
  addCycles _ _ := rfl

theorem exec_lifecycle (h : exec i s = .next t) : t.started = s.started ∧ t.fault = s.fault := by
  have e : t.setLifecycle s.started s.fault = t := (unobserved_setLifecycle s.started s.fault).next_fixed rfl h
  rw [← e]
  exact ⟨rfl, rfl⟩

/-- Cycles counted earlier are not seen: they stand in the sum afterwards. -/
theorem unobserved_addCycles (n : Nat) : Unobserved (State.addCycles · n) where
  sp _ := rfl
  pc _ := rfl
  flags _ := rfl
  mem _ := rfl
  cfg _ := rfl
  setSp _ _ := rfl
  setPc _ _ := rfl
  setFlags _ _ := rfl
  setMem _ _ := rfl
  addCycles s m := by simp only [State.addCycles, Nat.add_right_comm s.cyc m n]

/-- An instruction run with the counter at zero, the cycles counted before it added afterwards, is the instruction. -/
theorem exec_cyc_le (h : exec i s = .next t) : s.cyc ≤ t.cyc := by
  have hs : State.addCycles { s with cyc := 0 } s.cyc = s := by simp only [State.addCycles, Nat.zero_add]
  have e := (unobserved_addCycles s.cyc).exec_comm { s with cyc := 0 } i
  rw [hs, h] at e
  obtain ⟨u, -, hu⟩ := andThen_eq_next e.symm
  cases hu
  exact Nat.le_add_left s.cyc u.cyc

/-! Memory and flags. -/

/-- Only `BRK` and `JSR` write memory (R157). -/
theorem exec_mem (h : exec i s = .next t) (hbrk : i ≠ .brk) (hjsr : ∀ addr, i ≠ .jsr addr) : t.mem = s.mem := by
  cases i with
  | brk => exact absurd rfl hbrk
  | jsr addr => exact absurd rfl (hjsr addr)
  | rti => obtain ⟨-, -, -, rfl⟩ := execRti_eq_next h; rfl
  | rts => obtain ⟨-, -, rfl⟩ := execRts_eq_next h; rfl
  | jmpAbs addr => cases h; rfl
  | jmpInd ptr => cases h; rfl
  | bpl r | bmi r | bvc r | bvs r | bcc r | bcs r | bne r | beq r => cases (branch_eq _ _ r s).symm.trans h; rfl

/-- Every instruction keeps memory canonical: what it pushes it stores byte by byte. -/
theorem exec_mem_wf (h : exec i s = .next t) (hs : s.mem.wf = true) : t.mem.wf = true := by
  by_cases hbrk : i = .brk
  · subst hbrk
    obtain ⟨-, -, -, m, rfl, rfl⟩ := execBrk_eq_next h
    exact Memory.wf_write (Memory.wf_write (Memory.wf_write hs _ _) _ _) _ _
  by_cases hjsr : ∃ addr, i = .jsr addr
  · obtain ⟨addr, rfl⟩ := hjsr
    obtain ⟨-, -, rfl⟩ := execJsr_eq_next h
    exact Memory.wf_write (Memory.wf_write hs _ _) _ _
  · rw [exec_mem h hbrk (not_exists.1 hjsr)]
    exact hs

/-- Only `BRK` and `RTI` write flags (R28). -/
theorem exec_flags (h : exec i s = .next t) (hbrk : i ≠ .brk) (hrti : i ≠ .rti) : t.flags = s.flags := by
  cases i with
  | brk => exact absurd rfl hbrk
  | rti => exact absurd rfl hrti
  | jsr addr => obtain ⟨-, -, rfl⟩ := execJsr_eq_next h; rfl
  | rts => obtain ⟨-, -, rfl⟩ := execRts_eq_next h; rfl
  | jmpAbs addr => cases h; rfl
  | jmpInd ptr => cases h; rfl
  | bpl r | bmi r | bvc r | bvs r | bcc r | bcs r | bne r | beq r => cases (branch_eq _ _ r s).symm.trans h; rfl

/-! The step. -/

/-- Everything a step that completes did: no guard, and the instruction of the map or the table's descriptor. -/
theorem stepWith_eq_next {ext : ExtTable} (h : stepWith ext s = .next t) :
    guardRunning s = none ∧ ((∃ i, fetch s = some i ∧ exec i s = .next t) ∨ (fetch s = none ∧ runOutsideMap ext s = .next t)) := by
  unfold stepWith at h
  split at h
  · cases h
  next hg =>
    split at h
    next i hf => exact ⟨hg, .inl ⟨i, hf, h⟩⟩
    next hf => exact ⟨hg, .inr ⟨hf, h⟩⟩

/-- With the empty extension table a step that completes ran an instruction of the map. -/
theorem step_eq_next (h : step s = .next t) : ∃ i, fetch s = some i ∧ exec i s = .next t := by
  obtain ⟨-, hrun | ⟨-, hout⟩⟩ := stepWith_eq_next h
  · exact hrun
  · cases hout

/-- A descriptor's cycles are counted from `CYC` before the step (R38, log 19). -/
theorem runOutsideMap_cyc_le {ext : ExtTable} (h : runOutsideMap ext s = .next t) : s.cyc ≤ t.cyc := by
  unfold runOutsideMap at h
  split at h
  · cases h
  · obtain ⟨⟨u, cycles⟩, -, ht⟩ := andThen_eq_next h
    cases ht
    exact Nat.le_add_right s.cyc cycles

theorem stepWith_cyc_le {ext : ExtTable} (h : stepWith ext s = .next t) : s.cyc ≤ t.cyc := by
  obtain ⟨-, ⟨i, -, hi⟩ | ⟨-, hout⟩⟩ := stepWith_eq_next h
  · exact exec_cyc_le hi
  · exact runOutsideMap_cyc_le hout

end Sys2Proof.Machine
end

section
/-! SUPPORT. The status byte bit by bit (R30 to R33). -/

namespace Sys2Proof.Machine

/-- A flag appended below the flags above it doubles their value. -/
theorem toNat_append_ofBool {n : Nat} (x : BitVec n) (b : Bool) : (x ++ BitVec.ofBool b).toNat = x.toNat * 2 + b.toNat :=
  BitVec.toNat_concat x b

theorem packP_toNat (brk : Bool) (f : Flags) : (packP brk f).toNat =
    128 * f.n.toNat + 64 * f.v.toNat + 32 + 16 * brk.toNat + 8 * f.d.toNat + 4 * f.i.toNat + 2 * f.z.toNat + f.c.toNat := by
  have hbit5 : (1#1 : BitVec 1) = BitVec.ofBool true := rfl
  unfold packP
  simp only [hbit5, toNat_append_ofBool, BitVec.toNat_ofBool, Bool.toNat_true]
  omega

theorem unpackP_packP (brk : Bool) (f : Flags) : unpackP (packP brk f) = f := by
  obtain ⟨n, v, d, i, z, c⟩ := f
  revert brk n v d i z c; decide

/-- Unpacking forgets bits 5 and 4, and the live view gives them 1 and 0 (R31, R32). -/
theorem liveP_unpackP (b : Byte) : liveP (unpackP b) = (b &&& 0xCF#8) ||| 0x20#8 := by
  revert b; decide

end Sys2Proof.Machine
end

section
/-! SUPPORT. The host operations: which guard answers them, and which of them change `CYC` (R121, R125, R210, R213). -/

namespace Sys2Proof.Machine

variable {ext : ExtTable} {op : HostOp} {s t : State} {f : Fault}

theorem guardRunning_of_fault (h : s.fault = some f) : guardRunning s = some f := by
  simp only [guardRunning, h]

theorem guardRunning_of_not_started (hf : s.fault = none) (hs : s.started = false) : guardRunning s = some .notStarted := by
  simp [guardRunning, hf, hs]

theorem stepWith_of_guard (h : guardRunning s = some f) : stepWith ext s = .fault f := by
  simp only [stepWith, h]

theorem whenRunning_of_guard (h : guardRunning s = some f) (r : Result (HostReply × State)) : whenRunning s r = .fault f := by
  simp only [whenRunning, h]

theorem whenRunning_of_running (h : s.Running) (r : Result (HostReply × State)) : whenRunning s r = r := by
  simp only [whenRunning, guardRunning_of_running h]

/-- An operation that succeeds met no guard. -/
theorem whenRunning_eq_next {r : Result (HostReply × State)} {v : HostReply × State} (h : whenRunning s r = .next v) :
    guardRunning s = none ∧ r = .next v := by
  unfold whenRunning at h
  split at h
  · cases h
  next hg => exact ⟨hg, h⟩

/-- Every operation but `start()` is answered by the guard. -/
theorem hostCall_of_guard (h : guardRunning s = some f) (hop : ∀ inp, op ≠ .start inp) : hostCall ext op s = .fault f := by
  cases op with
  | start inp => exact absurd rfl (hop inp)
  | execute => simp only [hostCall, hostExecute, stepWith_of_guard h, andThen_fault]
  | _ => exact whenRunning_of_guard h _

theorem hostStart_of_started (inp : StartInputs) (hf : s.fault = none) (hs : s.started = true) :
    hostStart ext inp s = .fault .alreadyStarted := by
  simp only [hostStart, hf, hs, if_true]

/-- `start()` on a block not started, at a tier it can run (R98, R122). -/
theorem hostStart_of_not_started {inp : StartInputs} (hs : s.started = false) (hf : s.fault = none)
    (htier : inp.cfg.undocLevel = .tierNone ∨ ext.isEmpty = false) :
    hostStart ext inp s = .next { s with
      a := inp.a, x := inp.x, y := inp.y, sp := inp.sp, flags := inp.flags, cfg := inp.cfg,
      pc := s.vector resetVector, cyc := 0, started := true } := by
  have hrun : ¬ (inp.cfg.undocLevel ≠ .tierNone ∧ ext.isEmpty = true) := by
    rintro ⟨hlevel, hempty⟩
    rcases htier with h | h
    · exact hlevel h
    · rw [h] at hempty; cases hempty
  simp only [hostStart, hf, hs, if_neg hrun, Bool.false_eq_true, if_false]

/-- A recorded fault answers every operation (R41, log 17). -/
theorem hostCall_of_fault (h : s.fault = some f) : hostCall ext op s = .fault f := by
  by_cases hop : ∃ inp, op = .start inp
  · obtain ⟨inp, rfl⟩ := hop
    simp only [hostCall, hostStart, h, andThen_fault]
  · exact hostCall_of_guard (guardRunning_of_fault h) (not_exists.1 hop)

/-- A turn that reports a fault met that fault and recorded it. -/
theorem hostTurn_eq_fault (h : hostTurn ext op s = (.fault f, t)) : hostCall ext op s = .fault f ∧ t = s.recordFault f := by
  unfold hostTurn at h
  split at h
  · cases h
  next g hc => cases h; exact ⟨hc, rfl⟩
  · cases h

/-- A turn of a block with a recorded fault reports it and changes nothing. -/
theorem hostTurn_of_fault (h : s.fault = some f) : hostTurn ext op s = (.fault f, s) := by
  have hkeep : s.recordFault f = s := by rw [State.recordFault, h, Option.getD_some, ← h]
  simp only [hostTurn, hostCall_of_fault h, hkeep]

/-- Operations between steps are free (R251): only `execute()` and `start()` change `CYC`. -/
theorem hostCall_cyc {r : HostReply} (h : hostCall ext op s = .next (r, t)) (hexec : op ≠ .execute)
    (hstart : ∀ inp, op ≠ .start inp) : t.cyc = s.cyc := by
  cases op with
  | start inp => exact absurd rfl (hstart inp)
  | execute => exact absurd rfl hexec
  | cpuPushByte b =>
    obtain ⟨u, hu, ht⟩ := andThen_eq_next (whenRunning_eq_next h).2
    obtain ⟨-, rfl⟩ := push_eq_next hu
    cases ht; rfl
  | cpuPullByte =>
    obtain ⟨⟨b, u⟩, hu, ht⟩ := andThen_eq_next (whenRunning_eq_next h).2
    obtain ⟨-, -, rfl⟩ := pull_eq_next hu
    cases ht; rfl
  | cpuPushWord w =>
    obtain ⟨u, hu, ht⟩ := andThen_eq_next (whenRunning_eq_next h).2
    obtain ⟨-, -, rfl⟩ := pushWord_eq_next hu
    cases ht; rfl
  | cpuPullWord =>
    obtain ⟨⟨w, u⟩, hu, ht⟩ := andThen_eq_next (whenRunning_eq_next h).2
    obtain ⟨-, -, -, rfl⟩ := pullWord_eq_next hu
    cases ht; rfl
  | cpuSetRegister w => cases (whenRunning_eq_next h).2; cases w <;> rfl
  | cpuPcGet | cpuPcSet | memorySet | memoryFetch | cpuRegister | cpuFlag | cpuSetFlag | cpuUnsetFlag =>
    cases (whenRunning_eq_next h).2; rfl

end Sys2Proof.Machine
end

section
/-! SUPPORT. The statements of the state (10_state.md), settled. -/

namespace Sys2Proof.Claims

open Sys2Proof.Machine

/-- Settles O28: a step that completes is an instruction, and each instruction keeps memory canonical and the lifecycle and the
configuration as they were. -/
theorem stepKeepsRunning : Obligations.StepKeepsRunning := by
  rintro s t ⟨hwf, hstarted, hfault⟩ h
  obtain ⟨i, -, hi⟩ := step_eq_next h
  obtain ⟨hs, hf⟩ := exec_lifecycle hi
  exact ⟨⟨exec_mem_wf hi hwf, hs.trans hstarted, hf.trans hfault⟩, exec_cfg hi⟩

/-- Settles O10: the fetch is the decoding of those three bytes. -/
theorem fetchDependsOnThreeBytes : Obligations.FetchDependsOnThreeBytes := by
  intro s t hpc h0 h1 h2
  rw [fetch_eq, fetch_eq, hpc, h0, h1, h2]

/-- Settles O24: writing `A`, `X` and `Y` is a change that no instruction sees. -/
theorem generalRegistersNeitherReadNorWritten : Obligations.GeneralRegistersNeitherReadNorWritten := by
  intro i s a x y
  exact ⟨(unobserved_setGeneral a x y).exec_comm s i, fun t => exec_general⟩

/-- Settles O25, from the next state of `BRK` and of `RTI` and the frame of the others. -/
theorem flagsWrittenOnlyByBrkAndRti : Obligations.FlagsWrittenOnlyByBrkAndRti := by
  intro i s t h
  refine ⟨exec_flags h, ?_, ?_⟩
  · rintro rfl
    obtain ⟨-, -, -, m, -, rfl⟩ := execBrk_eq_next h
    rfl
  · rintro rfl
    obtain ⟨-, -, -, rfl⟩ := execRti_eq_next h
    exact liveP_unpackP _

/-- Settles O44: the whole next state of `start()`, field by field. -/
theorem startOutcome : Obligations.StartOutcome := by
  intro ext inp s hs hf htier
  rw [hostCall, hostStart_of_not_started hs hf htier, andThen_next]
  exact ⟨_, rfl, rfl, rfl, rfl, hf, rfl, rfl, rfl, rfl, rfl, rfl, rfl, rfl⟩

/-- Settles O46: the guard of `start()`, and the guard of every other operation. -/
theorem lifecycleFaults : Obligations.LifecycleFaults := by
  intro ext s hf
  refine ⟨fun hs inp => ?_, fun hs op => ?_, fun hs => ?_⟩
  · rw [hostCall, hostStart_of_started inp hf hs, andThen_fault]
  · exact hostCall_of_guard (guardRunning_of_not_started hf hs)
  · exact stepWith_of_guard (guardRunning_of_not_started hf hs)

/-- Settles O48: whether the fault is new or was recorded before, it is the recorded one afterwards, and that one answers. -/
theorem faultIsFinal : Obligations.FaultIsFinal := by
  intro ext op s t f h
  obtain ⟨hcall, rfl⟩ := hostTurn_eq_fault h
  have hrec : (s.recordFault f).fault = some f := by
    cases hs : s.fault with
    | none => rw [State.recordFault_fault, hs, Option.getD_none]
    | some g =>
      obtain rfl : g = f := Host.Outcome.fault.inj ((hostCall_of_fault hs).symm.trans hcall)
      rw [State.recordFault_fault, hs, Option.getD_some]
  exact ⟨hrec, fun ext' op' => hostTurn_of_fault hrec⟩

/-- Settles O55: the reported difference is what the step added, since `CYC` never falls. -/
theorem hostExecuteReports : Obligations.HostExecuteReports := by
  refine ⟨fun ext s t h => ⟨t.cyc - s.cyc, ?_, ?_⟩, fun ext s f h => ?_, fun ext s op r t => hostCall_cyc⟩
  · rw [hostCall, hostExecute, h, andThen_next]
  · exact (Nat.add_sub_cancel' (stepWith_cyc_le h)).symm
  · rw [hostCall, hostExecute, h, andThen_fault]

/-- Settles O29: the reset state lists no byte, is started and has met no fault. -/
theorem resetIsRunning : Obligations.ResetIsRunning := ⟨rfl, rfl, rfl⟩

/-- Settles O41: the flags are appended from bit 7 down, and each append doubles what stands above it. -/
theorem packPLayout : Obligations.PackPLayout := packP_toNat

/-- Settles O42: the two round trips. -/
theorem flagsRoundTrip : Obligations.FlagsRoundTrip := ⟨unpackP_packP, liveP_unpackP⟩

/-- Settles O52: on a running block a write is `writeRegister`, and `P` read back is the live view of the unpacked byte. -/
theorem registerWrites : Obligations.RegisterWrites := by
  intro ext b s hs
  have write (w : RegWrite) : hostCall ext (.cpuSetRegister w) s = .next (.done, writeRegister s w) :=
    whenRunning_of_running hs _
  refine ⟨write (.a b), write (.x b), write (.y b), write (.sp b), s.setFlags (unpackP b), write (.p b), rfl, ?_⟩
  have ht : (s.setFlags (unpackP b)).Running := hs
  rw [hostCall, whenRunning_of_running ht, readRegister, State.setFlags_flags, liveP_unpackP]

end Sys2Proof.Claims
end

section
/-! SUPPORT. Where the stack has room for a row of pushes or pulls, and that a stack operation completes exactly there and ends in
one fault elsewhere (R72, R212, R215). -/

namespace Sys2Proof.Machine

variable {α β : Type}

/-! Answers that complete under a condition. -/

/-- The answer is a value where `room` holds and the fault `f` elsewhere; it is never a refusal. -/
structure CompletesIff (r : Result α) (room : Prop) (f : Fault) : Prop where
  next : room → ∃ v, r = .next v
  fault : ¬ room → r = .fault f

namespace CompletesIff

variable {r : Result α} {k : α → Result β} {room room' : Prop} {f g : Fault}

theorem of_next (v : α) : CompletesIff (.next v) True f := ⟨fun _ => ⟨v, rfl⟩, fun h => absurd trivial h⟩

theorem congr (h : CompletesIff r room f) (e : room' ↔ room) : CompletesIff r room' f :=
  ⟨fun hr => h.next (e.1 hr), fun hr => h.fault fun hr' => hr (e.2 hr')⟩

/-- A sequence completes where both of its parts do. -/
theorem andThen (h : CompletesIff r room f) (hk : ∀ v, r = .next v → CompletesIff (k v) room' f) :
    CompletesIff (Machine.andThen r k) (room ∧ room') f := by
  by_cases hr : room
  · obtain ⟨v, hv⟩ := h.next hr
    have hkv := (hk v hv).congr (and_iff_right hr)
    rwa [hv]
  · rw [h.fault hr]
    exact ⟨fun both => absurd both.1 hr, fun _ => rfl⟩

/-- A sequence whose second part always completes does so where its first part does. -/
theorem andThen_next (h : CompletesIff r room f) (hk : ∀ v, ∃ u, k v = .next u) : CompletesIff (Machine.andThen r k) room f :=
  (h.andThen fun v _ => by obtain ⟨u, hu⟩ := hk v; rw [hu]; exact of_next u).congr (and_iff_left trivial).symm

theorem eq_fault_iff (h : CompletesIff r room f) : r = .fault g ↔ ¬ room ∧ g = f := by
  constructor
  · intro hg
    have hroom : ¬ room := fun hr => by
      obtain ⟨v, hv⟩ := h.next hr
      cases hv.symm.trans hg
    exact ⟨hroom, Host.Outcome.fault.inj (hg.symm.trans (h.fault hroom))⟩
  · rintro ⟨hroom, rfl⟩
    exact h.fault hroom

theorem ne_refused (h : CompletesIff r room f) (q : Refusal) : r ≠ .refused q := by
  intro hq
  by_cases hr : room
  · obtain ⟨v, hv⟩ := h.next hr
    cases hv.symm.trans hq
  · cases (h.fault hr).symm.trans hq

end CompletesIff

/-! Room. -/

/-- `n` pushes in a row from this pointer meet no boundary (R70, R72). -/
def PushRoom (cfg : Config) (sp : Byte) (n : Nat) : Prop := cfg.stackPolicy = .wrap ∨ n ≤ sp.toNat

/-- `n` pulls in a row from this pointer meet no boundary (R71, R72). -/
def PullRoom (cfg : Config) (sp : Byte) (n : Nat) : Prop := cfg.stackPolicy = .wrap ∨ sp.toNat + n ≤ 0xFF

section

variable {cfg : Config} {sp : Byte} {n : Nat}

theorem ne_wrap_iff {p : StackPolicy} : p ≠ .wrap ↔ p = .raise := by cases p <;> simp

theorem not_pushRoom : ¬ PushRoom cfg sp n ↔ cfg.stackPolicy = .raise ∧ sp.toNat < n := by
  rw [PushRoom, not_or, ← ne_eq, ne_wrap_iff, not_le]

theorem not_pullRoom : ¬ PullRoom cfg sp n ↔ cfg.stackPolicy = .raise ∧ 0xFF < sp.toNat + n := by
  rw [PullRoom, not_or, ← ne_eq, ne_wrap_iff, not_le]

theorem pushRoom_one : PushRoom cfg sp 1 ↔ pushBlocked cfg sp = false := pushBlocked_eq_false.symm

theorem pullRoom_one : PullRoom cfg sp 1 ↔ pullBlocked cfg sp = false := by
  rw [pullBlocked_eq_false]
  exact or_congr Iff.rfl (by omega)

/-- Room for one more push: the first is free and the others have room one pointer below. -/
theorem pushRoom_succ : PushRoom cfg sp (n + 1) ↔ PushRoom cfg sp 1 ∧ PushRoom cfg (sp - 1#8) n := by
  have hlt := sp.isLt
  have hpred : 1 ≤ sp.toNat → (sp - 1#8).toNat = sp.toNat - 1 := fun h => by bv_omega
  by_cases hw : cfg.stackPolicy = .wrap
  · simp only [PushRoom, hw, true_or, and_self]
  · simp only [PushRoom, hw, false_or]
    constructor
    · intro h
      have := hpred (by omega)
      omega
    · rintro ⟨h1, h⟩
      have := hpred h1
      omega

/-- Room for one more pull: the first is free and the others have room one pointer above. -/
theorem pullRoom_succ : PullRoom cfg sp (n + 1) ↔ PullRoom cfg sp 1 ∧ PullRoom cfg (sp + 1#8) n := by
  have hsucc : sp.toNat + 1 ≤ 0xFF → (sp + 1#8).toNat = sp.toNat + 1 := fun h => by bv_omega
  by_cases hw : cfg.stackPolicy = .wrap
  · simp only [PullRoom, hw, true_or, and_self]
  · simp only [PullRoom, hw, false_or]
    constructor
    · intro h
      have := hsucc (by omega)
      omega
    · rintro ⟨h1, h⟩
      have := hsucc h1
      omega

end

/-! The stack operations. -/

/-- The fault of a push at the boundary (R72). -/
def overflowFault : Fault := .stackBoundary .overflow 0x00#8

/-- The fault of a pull at the boundary (R72). -/
def underflowFault : Fault := .stackBoundary .underflow 0xFF#8

theorem push_completesIff (b : Byte) (s : State) : CompletesIff (push b s) (PushRoom s.cfg s.sp 1) overflowFault where
  next h := ⟨_, push_of_free (pushRoom_one.1 h)⟩
  fault h := by
    rw [pushRoom_one, Bool.not_eq_false] at h
    rw [push, if_pos h, (pushBlocked_eq_true.1 h).2, overflowFault]

theorem pull_completesIff (s : State) : CompletesIff (pull s) (PullRoom s.cfg s.sp 1) underflowFault where
  next h := ⟨_, pull_of_free (pullRoom_one.1 h)⟩
  fault h := by
    rw [pullRoom_one, Bool.not_eq_false] at h
    rw [pull, if_pos h, (pullBlocked_eq_true.1 h).2, underflowFault]

theorem pushWord_completesIff (w : Word) (s : State) : CompletesIff (pushWord w s) (PushRoom s.cfg s.sp 2) overflowFault :=
  ((push_completesIff (hi w) s).andThen fun s1 h1 => by
    obtain ⟨-, rfl⟩ := push_eq_next h1
    exact push_completesIff (lo w) _).congr pushRoom_succ

theorem pullWord_completesIff (s : State) : CompletesIff (pullWord s) (PullRoom s.cfg s.sp 2) underflowFault :=
  ((pull_completesIff s).andThen fun (l, s1) h1 => by
    obtain ⟨-, -, rfl⟩ := pull_eq_next h1
    exact (pull_completesIff _).andThen_next fun _ => ⟨_, rfl⟩).congr pullRoom_succ

/-- A trap entry pushes three bytes. -/
theorem takeTrap_completesIff (resume : Word) (s : State) :
    CompletesIff (takeTrap resume s) (PushRoom s.cfg s.sp 3) overflowFault := by
  have hroom : PushRoom s.cfg s.sp 3 ↔ PushRoom s.cfg s.sp 2 ∧ PushRoom s.cfg (s.sp - 1#8 - 1#8) 1 := by
    rw [pushRoom_succ (n := 2), pushRoom_succ (n := 1), pushRoom_succ (n := 1), and_assoc]
  refine ((pushWord_completesIff resume s).andThen fun s1 h1 => ?_).congr hroom
  obtain ⟨-, -, rfl⟩ := pushWord_eq_next h1
  exact (push_completesIff _ _).andThen_next fun _ => ⟨_, rfl⟩

/-- A trap return pulls three bytes. -/
theorem returnFromTrap_completesIff (s : State) : CompletesIff (returnFromTrap s) (PullRoom s.cfg s.sp 3) underflowFault :=
  ((pull_completesIff s).andThen fun (b, s1) h1 => by
    obtain ⟨-, -, rfl⟩ := pull_eq_next h1
    exact (pullWord_completesIff _).andThen_next fun _ => ⟨_, rfl⟩).congr pullRoom_succ

/-! The instructions. -/

theorem branch_completesIff (name : FlagName) (sense : Bool) (rel8 : Byte) (s : State) {f : Fault} :
    CompletesIff (branch name sense rel8 s) True f := by
  rw [branch_eq]
  exact .of_next _

/-- The stack has room for everything the instruction pushes or pulls. -/
def stackRoom (s : State) : Instr → Prop
  | .brk => PushRoom s.cfg s.sp 3
  | .jsr _ => PushRoom s.cfg s.sp 2
  | .rti => PullRoom s.cfg s.sp 3
  | .rts => PullRoom s.cfg s.sp 2
  | _ => True

/-- The fault of an instruction that meets the boundary: of a push for `BRK` and `JSR`, of a pull for `RTI` and `RTS`; the others
always have room. -/
def boundaryFault : Instr → Fault
  | .brk | .jsr _ => overflowFault
  | _ => underflowFault

/-- Every instruction completes where the stack has room for it, and ends in its boundary fault elsewhere. -/
theorem exec_completesIff (i : Instr) (s : State) : CompletesIff (exec i s) (stackRoom s i) (boundaryFault i) := by
  cases i with
  | brk => exact (takeTrap_completesIff _ (advance .implied s)).andThen_next fun _ => ⟨_, rfl⟩
  | jsr addr => exact (pushWord_completesIff _ (advance .absolute s)).andThen_next fun _ => ⟨_, rfl⟩
  | rti => exact (returnFromTrap_completesIff (advance .implied s)).andThen_next fun _ => ⟨_, rfl⟩
  | rts => exact (pullWord_completesIff (advance .implied s)).andThen_next fun _ => ⟨_, rfl⟩
  | jmpAbs addr => exact .of_next _
  | jmpInd ptr => exact .of_next _
  | bpl r | bmi r | bvc r | bvs r | bcc r | bcs r | bne r | beq r =>
    exact branch_completesIff _ _ r s

/-- Under wrap there is room for every instruction. -/
theorem stackRoom_of_wrap {s : State} (h : s.cfg.stackPolicy = .wrap) (i : Instr) : stackRoom s i := by
  cases i with
  | brk | jsr addr | rti | rts => exact .inl h
  | _ => trivial

/-- Which instructions meet the boundary, and from where. -/
theorem exec_eq_fault {i : Instr} {s : State} {f : Fault} (h : exec i s = .fault f) :
    s.cfg.stackPolicy = .raise ∧
      (((i = .brk ∨ ∃ addr, i = .jsr addr) ∧ s.sp.toNat ≤ 2 ∧ f = overflowFault) ∨
        ((i = .rti ∨ i = .rts) ∧ 0xFD ≤ s.sp.toNat ∧ f = underflowFault)) := by
  obtain ⟨hroom, rfl⟩ := (exec_completesIff i s).eq_fault_iff.1 h
  cases i with
  | brk => obtain ⟨hp, hlt⟩ := not_pushRoom.1 hroom; exact ⟨hp, .inl ⟨.inl rfl, by omega, rfl⟩⟩
  | jsr addr => obtain ⟨hp, hlt⟩ := not_pushRoom.1 hroom; exact ⟨hp, .inl ⟨.inr ⟨addr, rfl⟩, by omega, rfl⟩⟩
  | rti => obtain ⟨hp, hlt⟩ := not_pullRoom.1 hroom; exact ⟨hp, .inr ⟨.inl rfl, by omega, rfl⟩⟩
  | rts => obtain ⟨hp, hlt⟩ := not_pullRoom.1 hroom; exact ⟨hp, .inr ⟨.inr rfl, by omega, rfl⟩⟩
  | _ => exact absurd trivial hroom

end Sys2Proof.Machine
end

section
/-! SUPPORT. The opcode byte of the instruction fetched, and the faults of a step (R92, R94, R97, R219). -/

namespace Sys2Proof

/-- Under each byte of the opcode map stands an instruction that the encoder begins with that byte (R92, R94). -/
theorem opcodeTable_assemble (d : Descriptor) (hd : d ∈ opcodeTable) (l h : Byte) :
    ∃ i, (d.form.assemble d.opcode [l, h]).instr? = some i ∧ (encode i).head? = some d.opcode := by
  revert d
  simp only [opcodeTable, List.forall_mem_cons]
  exact ⟨⟨_, rfl, rfl⟩, ⟨_, rfl, rfl⟩, ⟨_, rfl, rfl⟩, ⟨_, rfl, rfl⟩, ⟨_, rfl, rfl⟩, ⟨_, rfl, rfl⟩, ⟨_, rfl, rfl⟩,
    ⟨_, rfl, rfl⟩, ⟨_, rfl, rfl⟩, ⟨_, rfl, rfl⟩, ⟨_, rfl, rfl⟩, ⟨_, rfl, rfl⟩, ⟨_, rfl, rfl⟩, ⟨_, rfl, rfl⟩,
    fun _ h => absurd h List.not_mem_nil⟩

end Sys2Proof

namespace Sys2Proof.Machine

variable {s : State} {f : Fault}

/-- The fetch fails outside the opcode map, and inside it gives an instruction with the opcode byte at `PC`. -/
theorem fetch_cases (s : State) : (s.read s.pc ∉ opcodeBytes ∧ fetch s = none) ∨
    ∃ i, fetch s = some i ∧ (encode i).head? = some (s.read s.pc) := by
  rw [fetch_eq]
  cases hl : lookup (s.read s.pc) with
  | none => exact .inl ⟨lookup_eq_none.1 hl, by simp only [decode, hl, Decoded.instr?]⟩
  | some form =>
    simp only [decode, hl]
    exact .inr (opcodeTable_assemble _ (lookup_eq_some hl) _ _)

theorem guardRunning_of_started (hs : s.started = true) (hf : s.fault = none) : guardRunning s = none := by
  simp only [guardRunning, hs, hf, if_true]

/-- A step that meets no guard faults outside the map, or in the instruction fetched. -/
theorem step_eq_fault (hg : guardRunning s = none) (h : step s = .fault f) :
    (s.read s.pc ∉ opcodeBytes ∧ f = .unsupportedOpcode (s.read s.pc) s.pc) ∨
      ∃ i, (encode i).head? = some (s.read s.pc) ∧ exec i s = .fault f := by
  rcases fetch_cases s with ⟨hmap, hf⟩ | ⟨i, hf, hop⟩
  · simp only [step, stepWith, hg, hf] at h
    cases h
    exact .inl ⟨hmap, rfl⟩
  · simp only [step, stepWith, hg, hf] at h
    exact .inr ⟨i, hop, h⟩

end Sys2Proof.Machine
end

section
/-! SUPPORT. What the stack operations leave in memory, and what is pulled after a push (R69 to R76). -/

namespace Sys2Proof.Machine

variable {s t : State}

@[simp] theorem State.read_setSp (s : State) (b : Byte) (addr : Word) : (s.setSp b).read addr = s.read addr := rfl

@[simp] theorem State.read_write_same (s : State) (addr : Word) (v : Byte) : (s.write addr v).read addr = v :=
  Memory.read_write_same _ _ _

theorem State.read_write_other (s : State) {addr other : Word} (v : Byte) (h : other ≠ addr) :
    (s.write addr v).read other = s.read other :=
  Memory.read_write_other _ _ h

theorem inStackPage_stackAddr (sp : Byte) : inStackPage (stackAddr sp) := by
  have := sp.isLt
  rw [inStackPage, stackAddr_toNat]
  omega

theorem ne_stackAddr {addr : Word} (h : ¬ inStackPage addr) (sp : Byte) : addr ≠ stackAddr sp := by
  rintro rfl
  exact h (inStackPage_stackAddr sp)

theorem Memory.read_write_stack (m : Memory) {addr : Word} (h : ¬ inStackPage addr) (sp v : Byte) :
    (m.write (stackAddr sp) v).read addr = m.read addr :=
  Memory.read_write_other _ _ (ne_stackAddr h sp)

theorem stackAddr_pred_ne (sp : Byte) : stackAddr (sp - 1#8) ≠ stackAddr sp := fun h =>
  sp_sub_one_ne sp (stackAddr_inj.1 h)

/-- No instruction writes outside the stack page (R68, R157). -/
theorem exec_read_outside_stack {i : Instr} (h : exec i s = .next t) {addr : Word} (ha : ¬ inStackPage addr) :
    t.read addr = s.read addr := by
  by_cases hbrk : i = .brk
  · subst hbrk
    obtain ⟨-, -, -, m, rfl, rfl⟩ := execBrk_eq_next h
    simp only [State.read_def, Memory.read_write_stack _ ha]
  by_cases hjsr : ∃ addr, i = .jsr addr
  · obtain ⟨target, rfl⟩ := hjsr
    obtain ⟨-, -, rfl⟩ := execJsr_eq_next h
    simp only [State.read_def, Memory.read_write_stack _ ha]
  · rw [State.read_def, exec_mem h hbrk (not_exists.1 hjsr), ← State.read_def]

/-! Pushes undone. -/

theorem sp_sub_two (sp : Byte) : sp - 1#8 - 1#8 = sp - 2#8 := by bv_omega

theorem sp_add_two (sp : Byte) : sp + 1#8 + 1#8 = sp + 2#8 := by bv_omega

theorem sp_add_three (sp : Byte) : sp + 2#8 + 1#8 = sp + 3#8 := by bv_omega

/-- After a free push the pull that undoes it is free: the boundaries lie at the two ends of the page. -/
theorem pullBlocked_pred {cfg : Config} {sp : Byte} (h : pushBlocked cfg sp = false) : pullBlocked cfg (sp - 1#8) = false := by
  rw [pushBlocked_eq_false] at h
  rw [pullBlocked_eq_false]
  exact h.imp_right fun h1 => by bv_omega

/-- A state that is `t` but for its pointer gives back the byte that stands above that pointer. -/
theorem pull_above {b : Byte} {sp : Byte} (hsp : s.sp = sp - 1#8) (hb : s.read (stackAddr sp) = b)
    (hfree : pushBlocked s.cfg sp = false) : pull s = .next (b, s.setSp sp) := by
  have hup : s.sp + 1#8 = sp := by rw [hsp, sp_sub_add]
  rw [pull_of_free (hsp ▸ pullBlocked_pred hfree), hup, hb]

/-- A byte pushed is the byte pulled, and only `SP` changes from the push to the end. -/
theorem pull_of_push {b : Byte} (h : push b s = .next t) : pull t = .next (b, t.setSp s.sp) := by
  obtain ⟨hfree, rfl⟩ := push_eq_next h
  exact pull_above rfl (by simp) hfree

/-- A word pushed is the word pulled, and only `SP` changes from the push to the end (R75 b). -/
theorem pullWord_of_pushWord {w : Word} (h : pushWord w s = .next t) : pullWord t = .next (w, t.setSp s.sp) := by
  obtain ⟨hfree, hfree', ht⟩ := pushWord_eq_next h
  have hhi : t.read (stackAddr s.sp) = hi w := by
    simp [ht, State.read_write_other _ _ (stackAddr_pred_ne s.sp).symm]
  have hlow : pull t = .next (lo w, t.setSp (s.sp - 1#8)) :=
    pull_above (by simp [ht]) (by simp [ht]) (by simpa [ht] using hfree')
  have hhigh : pull (t.setSp (s.sp - 1#8)) = .next (hi w, t.setSp s.sp) :=
    pull_above rfl hhi (by simpa [ht] using hfree)
  simp only [pullWord, hlow, hhigh, andThen_next, word_hi_lo]

/-! The host's stack operations (R132, R133). -/

theorem push_running {b : Byte} (h : push b s = .next t) (hs : s.Running) : t.Running := by
  obtain ⟨-, rfl⟩ := push_eq_next h
  exact ⟨Memory.wf_write hs.1 _ _, hs.2⟩

theorem pushWord_running {w : Word} (h : pushWord w s = .next t) (hs : s.Running) : t.Running := by
  obtain ⟨u, hu, ht⟩ := andThen_eq_next h
  exact push_running ht (push_running hu hs)

section

variable (hs : s.Running) (ext : ExtTable)
include hs

theorem hostCall_pushByte (b : Byte) :
    hostCall ext (.cpuPushByte b) s = andThen (push b s) fun t => .next (.done, t) :=
  whenRunning_of_running hs _

theorem hostCall_pullByte : hostCall ext .cpuPullByte s = andThen (pull s) fun r => .next (.byte r.1, r.2) :=
  whenRunning_of_running hs _

theorem hostCall_pushWord (w : Word) :
    hostCall ext (.cpuPushWord w) s = andThen (pushWord w s) fun t => .next (.done, t) :=
  whenRunning_of_running hs _

theorem hostCall_pullWord : hostCall ext .cpuPullWord s = andThen (pullWord s) fun r => .next (.word r.1, r.2) :=
  whenRunning_of_running hs _

end

end Sys2Proof.Machine

namespace Sys2Proof.Claims

open Sys2Proof.Machine

/-! Rows of pushes and pulls. -/

theorem pushAll_cons_eq_next {b : Byte} {bs : List Byte} {s t : State} (h : pushAll (b :: bs) s = .next t) :
    pushBlocked s.cfg s.sp = false ∧ pushAll bs ((s.write (stackAddr s.sp) b).setSp (s.sp - 1#8)) = .next t := by
  obtain ⟨u, hu, ht⟩ := andThen_eq_next h
  obtain ⟨hfree, rfl⟩ := push_eq_next hu
  exact ⟨hfree, ht⟩

theorem pushAll_cfg {bs : List Byte} {s t : State} (h : pushAll bs s = .next t) : t.cfg = s.cfg := by
  induction bs generalizing s with
  | nil => cases h; rfl
  | cons b rest ih => exact (ih (pushAll_cons_eq_next h).2 :)

/-- A row of pushes leaves alone each byte of the stack page that it does not reach, counted downwards from the pointer. -/
theorem pushAll_read {bs : List Byte} {s t : State} (h : pushAll bs s = .next t) {p : Byte}
    (hp : bs.length ≤ (s.sp - p).toNat) : t.read (stackAddr p) = s.read (stackAddr p) := by
  induction bs generalizing s with
  | nil => cases h; rfl
  | cons b rest ih =>
    rw [List.length_cons] at hp
    have hne : stackAddr p ≠ stackAddr s.sp := fun e => by
      rw [stackAddr_inj.1 e, BitVec.sub_self] at hp
      exact absurd hp (by simp)
    rw [ih (pushAll_cons_eq_next h).2 (by rw [State.setSp_sp]; bv_omega), State.read_setSp, State.read_write_other _ _ hne]

/-- The last of a row of pulls. -/
theorem pullMany_succ (n : Nat) (s : State) : pullMany (n + 1) s =
    andThen (pullMany n s) fun (bs, u) => andThen (pull u) fun (b, v) => .next (bs ++ [b], v) := by
  induction n generalizing s with
  | zero => rfl
  | succ n ih =>
    rw [pullMany, pullMany]
    cases pull s with
    | next v =>
      simp only [andThen_next, ih]
      cases pullMany n v.2 with
      | next x => simp only [andThen_next]; cases pull x.2 <;> rfl
      | fault f => rfl
      | refused q => rfl
    | fault f => rfl
    | refused q => rfl

/-- As many pulls as pushes, at most the 256 that the stack page holds, give the bytes in reverse order, and only `SP` changes
from the last push to the end (R75 a). -/
theorem pullMany_of_pushAll {bs : List Byte} {s t : State} (hlen : bs.length ≤ 256) (h : pushAll bs s = .next t) :
    pullMany bs.length t = .next (bs.reverse, t.setSp s.sp) := by
  induction bs generalizing s with
  | nil => cases h; rfl
  | cons b rest ih =>
    obtain ⟨hfree, hrest⟩ := pushAll_cons_eq_next h
    rw [List.length_cons] at hlen
    have hb : t.read (stackAddr s.sp) = b := by
      rw [pushAll_read hrest (by rw [State.setSp_sp]; bv_omega), State.read_setSp, State.read_write_same]
    have hlast : pull (t.setSp (s.sp - 1#8)) = .next (b, t.setSp s.sp) :=
      pull_above rfl hb (by rw [State.setSp_cfg, pushAll_cfg hrest]; exact hfree)
    rw [List.length_cons, pullMany_succ, ih (by omega) hrest, andThen_next, State.setSp_sp]
    simp only [hlast, andThen_next, List.reverse_cons]

end Sys2Proof.Claims
end

section
/-! SUPPORT. The bus accesses of a step: how they replay, and the row of pushes or pulls that a boundary cuts (R61, R67, R84). -/

namespace Sys2Proof.Machine

variable {s : State} {cfg : Config} {sp b : Byte} {bs : List Byte} {n : Nat}

/-- The accesses of a step of a running block: the opcode byte and the operands, then those of the instruction. -/
theorem stepAccesses_of_fetch {i : Instr} (h : s.Running) (hf : fetch s = some i) :
    stepAccesses s = readsFrom s s.pc (1 + i.mode.operandBytes) ++ bodyAccesses i s := by
  simp only [stepAccesses, guardRunning_of_running h, hf]

theorem readsFrom_two (s : State) (addr : Word) : readsFrom s addr 2 = [s.readAccess addr, s.readAccess (addr + 1#16)] := rfl

theorem readsFrom_three (s : State) (addr : Word) :
    readsFrom s addr 3 = [s.readAccess addr, s.readAccess (addr + 1#16), s.readAccess (addr + 2#16)] := by
  have e : addr + 1#16 + 1#16 = addr + 2#16 := by bv_omega
  rw [← e]
  rfl

/-! Rows of pushes and pulls. -/

/-- The writes of a row of pushes that meets no boundary. -/
def pushWrites : List Byte → Byte → List BusAccess
  | [], _ => []
  | b :: rest, sp => .write (stackAddr sp) b :: pushWrites rest (sp - 1#8)

/-- The reads of a row of pulls that meets no boundary. -/
def pullReads (s : State) : Nat → Byte → List BusAccess
  | 0, _ => []
  | n + 1, sp => s.readAccess (stackAddr (sp + 1#8)) :: pullReads s n (sp + 1#8)

theorem pushAccesses_of_room (h : PushRoom cfg sp bs.length) : pushAccesses cfg bs sp = pushWrites bs sp := by
  induction bs generalizing sp with
  | nil => rfl
  | cons b rest ih =>
    obtain ⟨hfree, hroom⟩ := pushRoom_succ.1 h
    simp [pushAccesses, pushWrites, pushRoom_one.1 hfree, ih hroom]

theorem pullAccesses_of_room (h : PullRoom s.cfg sp n) : pullAccesses s n sp = pullReads s n sp := by
  induction n generalizing sp with
  | zero => rfl
  | succ n ih =>
    obtain ⟨hfree, hroom⟩ := pullRoom_succ.1 h
    simp [pullAccesses, pullReads, pullRoom_one.1 hfree, ih hroom]

/-- Under raise as many pushes are made as the pointer counts (R72). -/
theorem pushAccesses_of_raise (h : cfg.stackPolicy = .raise) : pushAccesses cfg bs sp = (pushWrites bs sp).take sp.toNat := by
  induction bs generalizing sp with
  | nil => simp [pushAccesses, pushWrites]
  | cons b rest ih =>
    by_cases hsp : sp = 0x00#8
    · subst hsp
      simp [pushAccesses, pushBlocked, h]
    · have hpred : sp.toNat = (sp - 1#8).toNat + 1 := by bv_omega
      rw [hpred, pushWrites, List.take_succ_cons, ← ih]
      simp [pushAccesses, pushBlocked, hsp]

/-- Under raise as many pulls are made as the pointer lies below 0xFF (R72). -/
theorem pullAccesses_of_raise (h : s.cfg.stackPolicy = .raise) :
    pullAccesses s n sp = (pullReads s n sp).take (0xFF - sp.toNat) := by
  induction n generalizing sp with
  | zero => simp [pullAccesses, pullReads]
  | succ n ih =>
    by_cases hsp : sp = 0xFF#8
    · subst hsp
      simp [pullAccesses, pullBlocked, h]
    · have hsucc : 0xFF - sp.toNat = 0xFF - (sp + 1#8).toNat + 1 := by bv_omega
      rw [hsucc, pullReads, List.take_succ_cons, ← ih]
      simp [pullAccesses, pullBlocked, hsp]

/-! Replay. -/

theorem replay_append (m : Memory) (xs ys : List BusAccess) : replay m (xs ++ ys) = (replay m xs).bind (replay · ys) := by
  induction xs generalizing m with
  | nil => rfl
  | cons x rest ih =>
    cases x with
    | read addr v =>
      simp only [List.cons_append, replay]
      split
      · exact ih m
      · rfl
    | write addr v => exact ih _

/-- A read replays where the byte is still the one it returned. -/
theorem replay_readAccess {m : Memory} {addr : Word} (h : m.read addr = s.read addr) (xs : List BusAccess) :
    replay m (s.readAccess addr :: xs) = replay m xs :=
  if_pos h

theorem replay_readsFrom (s : State) (addr : Word) (n : Nat) : replay s.mem (readsFrom s addr n) = some s.mem := by
  induction n generalizing addr with
  | zero => rfl
  | succ n ih => rw [readsFrom, replay_readAccess rfl, ih]

theorem replay_pullAccesses (s : State) (n : Nat) (sp : Byte) : replay s.mem (pullAccesses s n sp) = some s.mem := by
  induction n generalizing sp with
  | zero => rfl
  | succ n ih =>
    unfold pullAccesses
    split
    · rfl
    · rw [replay_readAccess rfl, ih]

/-- A row of pushes, cut short or not, replays and writes the stack page alone. -/
theorem replay_pushAccesses (cfg : Config) (bs : List Byte) (sp : Byte) (m : Memory) :
    ∃ m', replay m (pushAccesses cfg bs sp) = some m' ∧ ∀ addr, ¬ inStackPage addr → m'.read addr = m.read addr := by
  induction bs generalizing sp m with
  | nil => exact ⟨m, rfl, fun _ _ => rfl⟩
  | cons b rest ih =>
    unfold pushAccesses
    split
    · exact ⟨m, rfl, fun _ _ => rfl⟩
    · obtain ⟨m', hm', hread⟩ := ih (sp - 1#8) (m.write (stackAddr sp) b)
      exact ⟨m', hm', fun addr ha => (hread addr ha).trans (Memory.read_write_stack m ha sp b)⟩

/-! What `BRK` and `JSR` write. -/

/-- With room for its three pushes `BRK` goes on to the vector. -/
theorem brkAccesses_of_room (h : PushRoom s.cfg s.sp 3) : brkAccesses s =
    pushWrites [hi (s.pc + 2#16), lo (s.pc + 2#16), packP true s.flags] s.sp ++ readsFrom s brkVector 2 := by
  rw [brkAccesses, pushAccesses_of_room h]
  rfl

/-- Without that room, under raise, `BRK` makes the pushes that the pointer counts and nothing after them. -/
theorem brkAccesses_of_raise (h : s.cfg.stackPolicy = .raise) (hsp : s.sp.toNat < 3) : brkAccesses s =
    (pushWrites [hi (s.pc + 2#16), lo (s.pc + 2#16), packP true s.flags] s.sp).take s.sp.toNat := by
  rw [brkAccesses, pushAccesses_of_raise h]
  refine if_neg fun hlen => ?_
  rw [List.length_take] at hlen
  omega

theorem vector_outside_stack : ¬ inStackPage brkVector ∧ ¬ inStackPage (brkVector + 1#16) := by
  unfold inStackPage
  decide

/-- The accesses of `BRK` replay, and give the memory of the next state: its pushes do not reach the vector. -/
theorem replay_brkAccesses (s : State) :
    ∃ m, replay s.mem (brkAccesses s) = some m ∧ ∀ t, execBrk s = .next t → m = t.mem := by
  obtain ⟨m, hm, hread⟩ :=
    replay_pushAccesses s.cfg [hi (s.pc + 2#16), lo (s.pc + 2#16), packP true s.flags] s.sp s.mem
  refine ⟨m, ?_, fun t ht => ?_⟩
  · simp only [brkAccesses]
    split
    · rw [replay_append, hm, Option.bind_some, readsFrom_two, replay_readAccess (hread _ vector_outside_stack.1),
        replay_readAccess (hread _ vector_outside_stack.2), replay]
    · exact hm
  · obtain ⟨h1, h2, h3, m', rfl, rfl⟩ := execBrk_eq_next ht
    simp only [pushAccesses, h1, h2, h3, Bool.false_eq_true, if_false, replay] at hm
    exact (Option.some.inj hm).symm

/-- The accesses of `JSR` replay, and give the memory of the next state. -/
theorem replay_jsrAccesses (s : State) (addr : Word) :
    ∃ m, replay s.mem (bodyAccesses (.jsr addr) s) = some m ∧ ∀ t, execJsr addr s = .next t → m = t.mem := by
  obtain ⟨m, hm, -⟩ := replay_pushAccesses s.cfg [hi (s.pc + 2#16), lo (s.pc + 2#16)] s.sp s.mem
  refine ⟨m, hm, fun t ht => ?_⟩
  obtain ⟨h1, h2, rfl⟩ := execJsr_eq_next ht
  simp only [pushAccesses, h1, h2, Bool.false_eq_true, if_false, replay] at hm
  exact (Option.some.inj hm).symm

/-- The accesses of an instruction replay, and give the memory of its next state (R67, R84). -/
theorem replay_bodyAccesses (i : Instr) (s : State) :
    ∃ m, replay s.mem (bodyAccesses i s) = some m ∧ ∀ t, exec i s = .next t → m = t.mem := by
  by_cases hbrk : i = .brk
  · subst hbrk
    exact replay_brkAccesses s
  by_cases hjsr : ∃ addr, i = .jsr addr
  · obtain ⟨addr, rfl⟩ := hjsr
    exact replay_jsrAccesses s addr
  · have hreads : replay s.mem (bodyAccesses i s) = some s.mem := by
      cases i with
      | brk => exact absurd rfl hbrk
      | jsr addr => exact absurd ⟨addr, rfl⟩ hjsr
      | rti => exact replay_pullAccesses s 3 s.sp
      | rts => exact replay_pullAccesses s 2 s.sp
      | jmpInd ptr => rw [bodyAccesses, replay_readAccess rfl, replay_readAccess rfl, replay]
      | _ => rfl
    exact ⟨s.mem, hreads, fun t ht => (exec_mem ht hbrk (not_exists.1 hjsr)).symm⟩

end Sys2Proof.Machine
end

section
/-! SUPPORT. The statements of the memory and the stack (20_memory.md), settled. -/

namespace Sys2Proof.Claims

open Sys2Proof.Machine

/-! Faults. -/

/-- Settles O20: each of the four faults exactly where the stack has no room for its pushes or pulls. -/
theorem stackBoundaryFaultsExactly : Obligations.StackBoundaryFaultsExactly := by
  intro s hraise
  have hpush (n : Nat) : ¬ PushRoom s.cfg s.sp n ↔ s.sp.toNat < n := not_pushRoom.trans (and_iff_right hraise)
  have hpull (n : Nat) : ¬ PullRoom s.cfg s.sp n ↔ 0xFF < s.sp.toNat + n := not_pullRoom.trans (and_iff_right hraise)
  refine ⟨fun addr f => (exec_completesIff (.jsr addr) s).eq_fault_iff.trans (and_congr_left' ((hpush 2).trans ?_)),
    fun f => (exec_completesIff .brk s).eq_fault_iff.trans (and_congr_left' ((hpush 3).trans ?_)),
    fun f => (exec_completesIff .rts s).eq_fault_iff.trans (and_congr_left' ((hpull 2).trans ?_)),
    fun f => (exec_completesIff .rti s).eq_fault_iff.trans (and_congr_left' ((hpull 3).trans ?_))⟩
  all_goals
    simp only [← BitVec.toNat_inj, BitVec.toNat_ofNat]
    have := s.sp.isLt
    omega

/-- Settles O21: under wrap the stack has room for every instruction. -/
theorem wrapPolicyNeverFaults : Obligations.WrapPolicyNeverFaults := by
  intro i s hwrap
  exact (exec_completesIff i s).next (stackRoom_of_wrap hwrap i)

/-- Settles O22: where an instruction does not complete it ends in its boundary fault. -/
theorem onlyStackBoundaryFaults : Obligations.OnlyStackBoundaryFaults := by
  intro i s
  refine ⟨(exec_completesIff i s).ne_refused, fun f h => ?_⟩
  obtain ⟨hraise, hcase⟩ := exec_eq_fault h
  exact ⟨hraise, hcase.imp (fun ⟨hi, _, hf⟩ => ⟨hi, hf⟩) (fun ⟨hi, _, hf⟩ => ⟨hi, hf⟩)⟩

/-- Settles O23: the step faults outside the map, or in the instruction whose opcode byte stands at `PC`. -/
theorem stepFaultClassification : Obligations.StepFaultClassification := by
  intro s f hs h
  rcases step_eq_fault (guardRunning_of_running hs) h with hout | ⟨i, hop, hi⟩
  · exact .inl hout
  · obtain ⟨hraise, hcase⟩ := exec_eq_fault hi
    refine .inr (hcase.imp (fun ⟨hi, hsp, hf⟩ => ⟨hraise, ?_, hsp, hf⟩) fun ⟨hi, hsp, hf⟩ => ⟨hraise, ?_, hsp, hf⟩)
    · rcases hi with rfl | ⟨addr, rfl⟩
      · exact .inl (Option.some.inj hop).symm
      · exact .inr (Option.some.inj hop).symm
    · rcases hi with rfl | rfl
      · exact .inl (Option.some.inj hop).symm
      · exact .inr (Option.some.inj hop).symm

/-- Settles O26: the writes of `BRK` and `JSR` go to stack addresses, and the others write nothing. -/
theorem memoryWrittenOnlyInStackPage : Obligations.MemoryWrittenOnlyInStackPage := by
  intro i s t h
  exact ⟨fun addr ha => exec_read_outside_stack h ha, exec_mem h⟩

/-- Settles O6: the fetch is the decoding of those three bytes. -/
theorem stepRunsDecodedInstruction : Obligations.StepRunsDecodedInstruction := by
  intro s i left hs hf hd
  have hi : fetch s = some i := by rw [fetch_eq, hd, Decoded.instr?]
  simp only [step, stepWith, guardRunning_of_started hs hf, hi]

/-! The stack. -/

/-- Settles O31: the push is blocked exactly under raise at 0x00. -/
theorem pushOutcome : Obligations.PushOutcome := by
  intro b s
  refine ⟨stackAddr_toNat s.sp, fun hblocked => ?_, fun hfree => ?_, fun ext hs => hostCall_pushByte hs ext b⟩
  · have hroom : ¬ PushRoom s.cfg s.sp 1 := by
      rw [pushRoom_one, Bool.not_eq_false]
      exact pushBlocked_eq_true.2 hblocked
    exact (push_completesIff b s).fault hroom
  · rw [← pushBlocked_eq_true, Bool.not_eq_true] at hfree
    exact ⟨_, push_of_free hfree, rfl, State.read_write_same _ _ _, fun a ha => State.read_write_other s b ha,
      rfl, rfl, rfl, rfl, rfl, rfl, rfl, rfl, rfl⟩

/-- Settles O32: the pull is blocked exactly under raise at 0xFF. -/
theorem pullOutcome : Obligations.PullOutcome := by
  intro s
  refine ⟨fun hblocked => ?_, fun hfree => ?_, fun ext hs => hostCall_pullByte hs ext⟩
  · have hroom : ¬ PullRoom s.cfg s.sp 1 := by
      rw [pullRoom_one, Bool.not_eq_false]
      exact pullBlocked_eq_true.2 hblocked
    exact (pull_completesIff s).fault hroom
  · rw [← pullBlocked_eq_true, Bool.not_eq_true] at hfree
    exact ⟨_, _, pull_of_free hfree, rfl, rfl, rfl, rfl, rfl, rfl, rfl, rfl, rfl, rfl, rfl, rfl⟩

/-- Settles O33: where there is room for both pushes the two bytes stand at different addresses. -/
theorem pushWordOutcome : Obligations.PushWordOutcome := by
  intro w s
  refine ⟨fun hroom => ?_, fun hblocked => (pushWord_completesIff w s).fault (not_pushRoom.2 hblocked),
    fun ext hs => hostCall_pushWord hs ext w⟩
  obtain ⟨t, ht⟩ := (pushWord_completesIff w s).next hroom
  obtain ⟨-, -, rfl⟩ := pushWord_eq_next ht
  refine ⟨_, ht, sp_sub_two s.sp, ?_, State.read_write_same _ _ _, fun a ha ha' => ?_,
    rfl, rfl, rfl, rfl, rfl, rfl, rfl, rfl, rfl⟩
  · rw [State.read_setSp, State.read_write_other _ _ (stackAddr_pred_ne s.sp).symm, State.read_setSp, State.read_write_same]
  · rw [State.read_setSp, State.read_write_other _ _ ha', State.read_setSp, State.read_write_other _ _ ha]

/-- Settles O34: the pulled word is the sum of its halves. -/
theorem pullWordOutcome : Obligations.PullWordOutcome := by
  intro s
  refine ⟨fun hfree => ?_, fun ⟨hraise, hsp⟩ => (pullWord_completesIff s).fault (not_pullRoom.2 ⟨hraise, by omega⟩),
    fun ext hs => hostCall_pullWord hs ext⟩
  obtain ⟨⟨w, t⟩, ht⟩ := (pullWord_completesIff s).next (hfree.imp_right fun hsp => by omega)
  obtain ⟨-, -, hw, rfl⟩ := pullWord_eq_next ht
  refine ⟨w, _, ht, sp_add_two s.sp, ?_, rfl, rfl, rfl, rfl, rfl, rfl, rfl, rfl, rfl, rfl⟩
  rw [hw, word_toNat, sp_add_two, Nat.mul_comm, Nat.add_comm]

/-- Settles O35: where there is room for the word it is pushed, and the pull gives it back. -/
theorem wordRoundTrip : Obligations.WordRoundTrip := by
  intro w s hroom
  obtain ⟨t, ht⟩ := (pushWord_completesIff w s).next hroom
  exact ⟨t, _, ht, pullWord_of_pushWord ht, rfl⟩

/-- Settles O36, by induction on the pushes, the last pull undoing the first of them. -/
theorem pushesThenPullsReverse : Obligations.PushesThenPullsReverse := by
  intro bs s t hlen h
  exact ⟨_, pullMany_of_pushAll hlen h, rfl, rfl⟩

/-- Settles O37: the outcome of the push at the two ends of the stack page. -/
theorem stackWordStraddleStaysInPage : Obligations.StackWordStraddleStaysInPage := by
  intro w s hwrap hsp
  have hbottom : stackAddr 0x00#8 = 0x0100#16 := rfl
  have htop : stackAddr (0x00#8 - 1#8) = 0x01FF#16 := rfl
  obtain ⟨t, ht, -, hhi, hlo, hrest, -⟩ := (pushWordOutcome w s).1 (.inl hwrap)
  rw [hsp, hbottom] at hhi
  rw [hsp, htop] at hlo
  rw [hsp, hbottom, htop] at hrest
  exact ⟨t, ht, hhi, hlo, hrest⟩

/-- Settles O54: the outcomes of the primitives, and the pull that undoes a push. -/
theorem hostStackOps : Obligations.HostStackOps := by
  intro ext b w s hs
  refine ⟨hostCall_pushByte hs ext b, hostCall_pullByte hs ext, hostCall_pushWord hs ext w, hostCall_pullWord hs ext,
    fun hraise hsp => ?_, fun hraise hsp => ?_, fun hroom => ⟨?_, ?_⟩⟩
  · rw [hostCall_pushByte hs, (pushOutcome b s).2.1 ⟨hraise, hsp⟩, andThen_fault]
  · rw [hostCall_pullByte hs, (pullOutcome s).1 ⟨hraise, hsp⟩, andThen_fault]
  · obtain ⟨t, ht⟩ := (push_completesIff b s).next (pushRoom_succ.1 hroom).1
    have hcall : hostCall ext (.cpuPushByte b) s = .next (.done, t) := by rw [hostCall_pushByte hs, ht, andThen_next]
    have hback : hostCall ext .cpuPullByte t = .next (.byte b, t.setSp s.sp) := by
      rw [hostCall_pullByte (push_running ht hs), pull_of_push ht, andThen_next]
    obtain ⟨-, rfl⟩ := push_eq_next ht
    exact ⟨_, _, hcall, rfl, State.read_write_same _ _ _, hback, rfl, rfl, rfl⟩
  · obtain ⟨t, ht, hsp, hhi, hlo, -, -, -, hcyc, -⟩ := (pushWordOutcome w s).1 hroom
    have hcall : hostCall ext (.cpuPushWord w) s = .next (.done, t) := by rw [hostCall_pushWord hs, ht, andThen_next]
    have hback : hostCall ext .cpuPullWord t = .next (.word w, t.setSp s.sp) := by
      rw [hostCall_pullWord (pushWord_running ht hs), pullWord_of_pushWord ht, andThen_next]
    exact ⟨t, _, hcall, hsp, hhi, hlo, hback, hcyc, rfl, hcyc⟩

/-! Bus accesses. -/

/-- Settles O57: the fetches replay on the memory as it is, then the accesses of the instruction. -/
theorem busAccessesReplay : Obligations.BusAccessesReplay := by
  intro s hs
  rcases fetch_cases s with ⟨-, hf⟩ | ⟨i, hf, -⟩
  · have haccesses : stepAccesses s = [s.readAccess s.pc] := by
      simp only [stepAccesses, guardRunning_of_running hs, hf]
    rw [haccesses, replay_readAccess rfl, replay]
    refine ⟨⟨_, rfl⟩, fun t ht => ?_⟩
    obtain ⟨i, hi, -⟩ := step_eq_next ht
    cases hf.symm.trans hi
  · obtain ⟨m, hm, hnext⟩ := replay_bodyAccesses i s
    have hreplay : replay s.mem (stepAccesses s) = some m := by
      rw [stepAccesses_of_fetch hs hf, replay_append, replay_readsFrom, Option.bind_some, hm]
    refine ⟨⟨m, hreplay⟩, fun t ht => ?_⟩
    rw [hreplay, hnext t ((stepWith_of_fetch [] hs hf).symm.trans ht)]

/-- Settles O58: the fetches of the instruction's mode, then its accesses, which the stack has room for. -/
theorem busSequences : Obligations.BusSequences := by
  intro s i hs hf
  have hacc := stepAccesses_of_fetch hs hf
  refine ⟨fun x hx => ?_, ?_, ?_, ?_, ?_, ?_, ?_⟩
  · have hbody : readsFrom s s.pc (1 + i.mode.operandBytes) ++ bodyAccesses i s = readsFrom s s.pc 2 := by
      cases i with
      | bpl r | bmi r | bvc r | bvs r | bcc r | bcs r | bne r | beq r => rfl
      | _ => cases hx
    rw [hacc, hbody]
    rfl
  · rintro addr rfl
    exact hacc.trans (readsFrom_three s s.pc)
  · rintro ptr rfl
    rw [hacc, bodyAccesses, indirectHighAddr_eq]
    exact congrArg (· ++ _) (readsFrom_three s s.pc)
  · rintro addr rfl hroom
    rw [hacc, bodyAccesses, pushAccesses_of_room (bs := [_, _]) hroom]
    exact congrArg (· ++ _) (readsFrom_three s s.pc)
  · rintro rfl hroom
    have hpulls : PullRoom s.cfg s.sp 2 := hroom.imp_right fun h => by omega
    rw [hacc, bodyAccesses, pullAccesses_of_room hpulls]
    simp only [pullReads, sp_add_two]
    rfl
  · rintro rfl hroom
    have hpulls : PullRoom s.cfg s.sp 3 := hroom.imp_right fun h => by omega
    rw [hacc, bodyAccesses, pullAccesses_of_room hpulls]
    simp only [pullReads, sp_add_two, sp_add_three]
    rfl
  · rintro rfl hroom
    rw [hacc, bodyAccesses, brkAccesses_of_room hroom]
    simp only [pushWrites, sp_sub_two]
    rfl

/-- Settles O59: under raise the pointer says how many of the pushes or pulls are made. -/
theorem busSequencesCutShort : Obligations.BusSequencesCutShort := by
  intro s i hs hf hraise
  have hacc := stepAccesses_of_fetch hs hf
  refine ⟨?_, ?_, ?_, ?_⟩
  · rintro addr rfl
    have hfetch : readsFrom s s.pc (1 + (Instr.jsr addr).mode.operandBytes) =
      [s.readAccess s.pc, s.readAccess (s.pc + 1#16), s.readAccess (s.pc + 2#16)] := readsFrom_three s s.pc
    rw [hacc, hfetch, bodyAccesses, pushAccesses_of_raise hraise]
    exact ⟨fun hsp => hsp ▸ rfl, fun hsp => hsp ▸ rfl⟩
  · rintro rfl
    refine ⟨fun hsp => ?_, fun hsp => ?_, fun hsp => ?_⟩
    all_goals
      rw [hacc, bodyAccesses, brkAccesses_of_raise hraise (by rw [hsp]; decide), hsp]
      rfl
  · rintro rfl
    rw [hacc, bodyAccesses, pullAccesses_of_raise hraise]
    exact ⟨fun hsp => hsp ▸ rfl, fun hsp => hsp ▸ rfl⟩
  · rintro rfl
    rw [hacc, bodyAccesses, pullAccesses_of_raise hraise]
    exact ⟨fun hsp => hsp ▸ rfl, fun hsp => hsp ▸ rfl, fun hsp => hsp ▸ rfl⟩

end Sys2Proof.Claims
end

section
/-! SUPPORT. The decoder and the encoder against one another, row by row of the opcode map (R90 to R94), and the offset an
assembler emits (R102). -/

namespace Sys2Proof

variable {op : Byte} {d : Descriptor} {i : Instr} {bs rest : List Byte}

/-! Decoding what was encoded. -/

/-- Every instruction round-trips, by the fact of its constructor. -/
theorem roundTrip (i : Instr) : Laws.RoundTrip.Statement i :=
  match i with
  | .brk => Laws.RoundTrip.brk
  | .bpl r => Laws.RoundTrip.bpl r
  | .jsr a => Laws.RoundTrip.jsr a
  | .bmi r => Laws.RoundTrip.bmi r
  | .rti => Laws.RoundTrip.rti
  | .jmpAbs a => Laws.RoundTrip.jmpAbs a
  | .bvc r => Laws.RoundTrip.bvc r
  | .rts => Laws.RoundTrip.rts
  | .jmpInd p => Laws.RoundTrip.jmpInd p
  | .bvs r => Laws.RoundTrip.bvs r
  | .bcc r => Laws.RoundTrip.bcc r
  | .bcs r => Laws.RoundTrip.bcs r
  | .bne r => Laws.RoundTrip.bne r
  | .beq r => Laws.RoundTrip.beq r

theorem decode_encode_append (i : Instr) (rest : List Byte) : decode (encode i ++ rest) = .instr i rest := (roundTrip i).2 rest

theorem encode_length (i : Instr) : (encode i).length = 1 + i.mode.operandBytes := (roundTrip i).1

/-! Encoding what was decoded. -/

/-- The encoder writes each instruction of the row as the row's opcode byte and the operand bytes of its format (R91, R93). -/
def Descriptor.Encodes (d : Descriptor) : Prop :=
  match d.form with
  | .implied i => encode i = [d.opcode]
  | .relative make => ∀ r, encode (make r) = [d.opcode, r]
  | .absolute make => ∀ w, encode (make w) = [d.opcode, lo w, hi w]
  | .indirect make => ∀ w, encode (make w) = [d.opcode, lo w, hi w]

theorem encodes_of_mem_opcodeTable (hd : d ∈ opcodeTable) : d.Encodes := by
  revert d
  simp only [opcodeTable, List.forall_mem_cons]
  exact ⟨rfl, fun _ => rfl, fun _ => rfl, fun _ => rfl, rfl, fun _ => rfl, fun _ => rfl, rfl, fun _ => rfl, fun _ => rfl,
    fun _ => rfl, fun _ => rfl, fun _ => rfl, fun _ => rfl, fun _ h => absurd h List.not_mem_nil⟩

/-- What operand assembly gives encodes to the opcode byte and the operand bytes it took. -/
theorem encode_of_assemble (hd : d.Encodes) (h : d.form.assemble d.opcode bs = .instr i rest) :
    d.opcode :: bs = encode i ++ rest := by
  obtain ⟨op, form⟩ := d
  match form, bs, h with
  | .implied j, bs, h =>
    cases h
    exact congrArg (· ++ rest) (Eq.symm hd)
  | .relative mk, r :: bs, h =>
    cases h
    exact congrArg (· ++ rest) (hd r).symm
  | .absolute mk, l :: g :: bs, h | .indirect mk, l :: g :: bs, h =>
    cases h
    have hw : encode (mk (word g l)) = [op, lo (word g l), hi (word g l)] := hd (word g l)
    rw [hw, lo_word, hi_word]
    rfl

/-- The bytes the decoder consumed are those the encoder writes. -/
theorem eq_encode_append_of_decode (h : decode bs = .instr i rest) : bs = encode i ++ rest := by
  cases bs with
  | nil => cases h
  | cons op args =>
    cases hl : lookup op with
    | none => simp only [decode, hl] at h; cases h
    | some form =>
      simp only [decode, hl] at h
      exact encode_of_assemble (d := ⟨op, form⟩) (encodes_of_mem_opcodeTable (lookup_eq_some hl)) h

/-! The domain of the decoder. -/

/-- Outside the opcode map the decoder refuses the byte by name (R97). -/
theorem decode_of_not_mem (hop : op ∉ opcodeBytes) (rest : List Byte) : decode (op :: rest) = .unsupported op := by
  simp only [decode, lookup_eq_none.2 hop]

/-- Two operand bytes are enough for every form (R91). -/
theorem assemble_two (form : Form) (op l h : Byte) (rest : List Byte) :
    ∃ i left, form.assemble op (l :: h :: rest) = .instr i left := by
  cases form <;> exact ⟨_, _, rfl⟩

/-- Inside the opcode map the decoder gives an instruction where two operand bytes are present (R92, R94). -/
theorem decode_of_mem (hop : op ∈ opcodeBytes) (l h : Byte) (rest : List Byte) :
    ∃ i left, decode (op :: l :: h :: rest) = .instr i left := by
  cases hl : lookup op with
  | none => exact absurd hop (lookup_eq_none.1 hl)
  | some form =>
    simp only [decode, hl]
    exact assemble_two form op l h rest

/-! The offset of a branch. -/

/-- Sign extension keeps the low byte (R11). -/
@[simp] theorem lo_sext16 (r : Byte) : lo (sext16 r) = r := by
  revert r; decide

/-- The assembler emits the byte whose sign extension is the distance to the target (R102). -/
theorem branchOperand_eq_some {a t : Word} {r : Byte} : branchOperand a t = some r ↔ sext16 r = t - (a + 2#16) := by
  simp only [branchOperand, Option.ite_none_right_eq_some, Option.some.injEq]
  constructor
  · rintro ⟨hd, rfl⟩
    exact hd
  · intro hd
    rw [← hd, lo_sext16]
    exact ⟨rfl, rfl⟩

end Sys2Proof
end

section
/-! SUPPORT. The step outside the opcode map: the descriptor of the extension table and its stages, or the fault (R97, R99,
R126, R211); and the refusal of `start()` (R98). -/

namespace Sys2Proof.Machine

variable {ext : ExtTable} {s t : State} {d : ExtDescriptor} {op : Byte}

/-! The fetch. -/

theorem fetch_of_not_mem (hop : s.read s.pc ∉ opcodeBytes) : fetch s = none := by
  rw [fetch_eq, decode_of_not_mem hop, Decoded.instr?]

theorem fetch_of_mem (hop : s.read s.pc ∈ opcodeBytes) : ∃ i, fetch s = some i := by
  rcases fetch_cases s with ⟨hout, -⟩ | ⟨i, hi, -⟩
  · exact absurd hop hout
  · exact ⟨i, hi⟩

/-- Where the map has an instruction the extension table is not consulted (R94, R126). -/
theorem stepWith_eq_step_of_fetch {i : Instr} (hi : fetch s = some i) : stepWith ext s = step s := by
  simp only [step, stepWith, hi]

theorem stepWith_of_not_mem (hg : guardRunning s = none) (hop : s.read s.pc ∉ opcodeBytes) :
    stepWith ext s = runOutsideMap ext s := by
  simp only [stepWith, hg, fetch_of_not_mem hop]

/-- Outside the map the opcode read is the only bus access (R211). -/
theorem stepAccesses_of_not_mem (hg : guardRunning s = none) (hop : s.read s.pc ∉ opcodeBytes) :
    stepAccesses s = [.read s.pc (s.read s.pc)] := by
  simp only [stepAccesses, hg, fetch_of_not_mem hop, State.readAccess]

/-! The extension table. -/

theorem descriptor_eq_none (h : ∀ d, (op, d) ∉ ext) : ext.descriptor op = none := by
  simp only [ExtTable.descriptor, Option.map_eq_none_iff, List.find?_eq_none, beq_iff_eq]
  rintro ⟨b, d⟩ hmem rfl
  exact h d hmem

/-- An allowed table has no entry for a byte of the map (R99). -/
theorem not_mem_opcodeBytes_of_wf (hwf : ext.wf = true) (hmem : (op, d) ∈ ext) : op ∉ opcodeBytes := by
  simp only [ExtTable.wf, extDomainWellFormed, Bool.and_eq_true, List.all_eq_true] at hwf
  simpa using hwf.1 op (List.mem_map_of_mem hmem)

theorem runOutsideMap_of_no_descriptor (hd : ext.descriptor (s.read s.pc) = none) :
    runOutsideMap ext s = .fault (.unsupportedOpcode (s.read s.pc) s.pc) := by
  simp only [runOutsideMap, hd]

/-- The stages of a descriptor whose action completes (R126, log 19). -/
theorem runOutsideMap_of_descriptor {c : Nat} (hd : ext.descriptor (s.read s.pc) = some d)
    (hact : d.action s.pc (nextPc s.pc d.operandBytes.val) (s.mem.bytesFrom (s.pc + 1#16) d.operandBytes.val)
      (s.setPc (nextPc s.pc d.operandBytes.val)) = .next (t, c)) :
    runOutsideMap ext s = .next { t with cyc := s.cyc + c } := by
  simp only [runOutsideMap, hd, hact, andThen_next]

/-- The operand bytes a descriptor is given are the first of the two after the opcode byte (R90). -/
theorem bytesFrom_operands (s : State) (n : Fin 3) :
    s.mem.bytesFrom (s.pc + 1#16) n.val = [s.read (s.pc + 1#16), s.read (s.pc + 2#16)].take n.val := by
  have hnext : s.pc + 1#16 + 1#16 = s.pc + 2#16 := by bv_omega
  match n with
  | 0 => rfl
  | 1 => rfl
  | 2 => rw [← hnext]; rfl

/-! The refusal of `start()`. -/

/-- A tier above none without an extension table is refused (R98, log 18). -/
theorem hostStart_without_table {inp : StartInputs} (hs : s.started = false) (hf : s.fault = none)
    (htier : inp.cfg.undocLevel ≠ .tierNone) : hostStart [] inp s = .refused (.undocLevelWithoutTable inp.cfg.undocLevel) := by
  have hrefuse : inp.cfg.undocLevel ≠ .tierNone ∧ List.isEmpty ([] : ExtTable) = true := ⟨htier, rfl⟩
  simp only [hostStart, hf, hs, Bool.false_eq_true, if_false, if_pos hrefuse]

end Sys2Proof.Machine
end

section
/-! SUPPORT. The statements of the encoding (30_encoding.md), settled. -/

namespace Sys2Proof.Claims

open Sys2Proof.Machine

/-- The fourteen bytes of the statements are the domain of the decoder's table. -/
theorem mapBytes_eq_opcodeBytes : mapBytes = opcodeBytes := rfl

/-- Settles O1: fixed words, decoded. -/
theorem decodeOpcodeMapWords : Obligations.DecodeOpcodeMapWords := by
  unfold Obligations.DecodeOpcodeMapWords
  decide

/-- Settles O2, from the round trip of each constructor. -/
theorem decodeEncodeIsIdentity : Obligations.DecodeEncodeIsIdentity := by
  intro i _ rest
  exact decode_encode_append i rest

/-- Settles O3: each row of the map encodes what its operand assembly takes. -/
theorem decodeReadsEveryByte : Obligations.DecodeReadsEveryByte := by
  intro bs i rest h
  have hbs : bs = encode i ++ rest := eq_encode_append_of_decode h
  exact ⟨hbs, by rw [hbs, List.length_append, encode_length]⟩

/-- Settles O4: the lookup succeeds exactly on the map, and two operand bytes are enough for every form. -/
theorem decoderCoversExactlyTheMap : Obligations.DecoderCoversExactlyTheMap := by
  intro op l h rest
  rw [mapBytes_eq_opcodeBytes]
  exact ⟨fun hop => decode_of_mem hop l h rest, fun hop => decode_of_not_mem hop rest⟩

/-- Settles O5: the emitted byte is the one whose sign extension is the distance. -/
theorem branchOperandReachesTarget : Obligations.BranchOperandReachesTarget := by
  intro a t r
  exact branchOperand_eq_some.trans eq_sub_iff_add_eq'

/-- Settles O7: the fetch fails and the table has no descriptor. -/
theorem unsupportedOpcodeStopsTheStep : Obligations.UnsupportedOpcodeStopsTheStep := by
  intro ext s hs hf hop
  have hg : guardRunning s = none := guardRunning_of_started hs hf
  rw [mapBytes_eq_opcodeBytes] at hop
  have faults (table : ExtTable) (hnone : ∀ d, (s.read s.pc, d) ∉ table) :
      stepWith table s = .fault (.unsupportedOpcode (s.read s.pc) s.pc) := by
    rw [stepWith_of_not_mem hg hop, runOutsideMap_of_no_descriptor (descriptor_eq_none hnone)]
  exact ⟨faults ext, faults [] fun _ => List.not_mem_nil, stepAccesses_of_not_mem hg hop⟩

/-- Settles O8: on a byte of the map the fetch gives an instruction, and the table is not consulted. -/
theorem extensionTableIsConservative : Obligations.ExtensionTableIsConservative := by
  intro ext s hop
  obtain ⟨i, hi⟩ := fetch_of_mem hop
  exact stepWith_eq_step_of_fetch hi

/-- Settles O9: the byte lies outside the map, and the entry is the table's descriptor of it. -/
theorem extensionDescriptorRunsInStages : Obligations.ExtensionDescriptorRunsInStages := by
  rintro ext s t d n c operands hwf hs hf hmem rfl rfl hact
  rw [← bytesFrom_operands] at hact
  rw [stepWith_of_not_mem (guardRunning_of_started hs hf) (not_mem_opcodeBytes_of_wf hwf hmem)]
  exact runOutsideMap_of_descriptor (descriptor_of_mem hwf hmem) hact

/-- Settles O47: `start()` is refused, and so is the operation. -/
theorem undocLevelRefusedAtStart : Obligations.UndocLevelRefusedAtStart := by
  intro inp s hs hf htier
  rw [hostCall, hostStart_without_table hs hf htier, andThen_refused]

end Sys2Proof.Claims
end

section
/-! SUPPORT. The accessors of a running block (R123, R124, R127 to R131), and what every host operation keeps (R121, R135). -/

namespace Sys2Proof.Machine

variable {s : State}

/-! Flags by name. -/

/-- Reading a flag after a write: the named flag has the value written, every other keeps its own, and the break name is not
written (R129 to R131). -/
theorem Flags.get_set (f : Flags) (name other : FlagName) (b : Bool) :
    (f.set name b).get other = if other = name ∧ name ≠ .brk then b else f.get other := by
  cases name <;> cases other <;> rfl

theorem Flags.get_set_same (f : Flags) {name : FlagName} (h : name ≠ .brk) (b : Bool) : (f.set name b).get name = b := by
  rw [Flags.get_set, if_pos ⟨rfl, h⟩]

theorem Flags.get_set_other (f : Flags) {name other : FlagName} (h : other ≠ name) (b : Bool) :
    (f.set name b).get other = f.get other := by
  rw [Flags.get_set, if_neg fun e => h e.1]

/-- A cleared flag reads 0, and the break name reads 0 anyway. -/
theorem Flags.get_set_false (f : Flags) (name : FlagName) : (f.set name false).get name = false := by
  by_cases h : name = .brk
  · subst h; rfl
  · exact f.get_set_same h false

/-! Updates that keep a block running. -/

theorem State.Running.write (hs : s.Running) (addr : Word) (v : Byte) : (s.write addr v).Running := by
  obtain ⟨hwf, hlife⟩ := hs
  exact ⟨Memory.wf_write hwf addr v, hlife⟩

theorem State.Running.setFlags (hs : s.Running) (f : Flags) : (s.setFlags f).Running := hs

theorem State.Running.setPc (hs : s.Running) (w : Word) : (s.setPc w).Running := hs

theorem State.Running.setSp (hs : s.Running) (b : Byte) : (s.setSp b).Running := hs

/-- A register write touches neither memory, lifecycle nor configuration (R128). -/
theorem State.Running.writeRegister (hs : s.Running) (w : RegWrite) :
    (writeRegister s w).Running ∧ (writeRegister s w).cfg = s.cfg := by
  cases w <;> exact ⟨hs, rfl⟩

/-! The accessors, past the guard. -/

section

variable (hs : s.Running) (ext : ExtTable)
include hs

theorem hostCall_pcGet : hostCall ext .cpuPcGet s = .next (.word s.pc, s) := whenRunning_of_running hs _

theorem hostCall_pcSet (v : Word) : hostCall ext (.cpuPcSet v) s = .next (.done, s.setPc v) := whenRunning_of_running hs _

theorem hostCall_memorySet (addr : Word) (v : Byte) :
    hostCall ext (.memorySet addr v) s = .next (.done, s.write addr v) :=
  whenRunning_of_running hs _

theorem hostCall_memoryFetch (addr : Word) : hostCall ext (.memoryFetch addr) s = .next (.byte (s.read addr), s) :=
  whenRunning_of_running hs _

theorem hostCall_register (name : RegName) : hostCall ext (.cpuRegister name) s = .next (readRegister s name, s) :=
  whenRunning_of_running hs _

theorem hostCall_flag (name : FlagName) : hostCall ext (.cpuFlag name) s = .next (.bit (s.flags.get name), s) :=
  whenRunning_of_running hs _

theorem hostCall_setFlag (name : FlagName) :
    hostCall ext (.cpuSetFlag name) s = .next (.done, s.setFlags (s.flags.set name true)) :=
  whenRunning_of_running hs _

theorem hostCall_unsetFlag (name : FlagName) :
    hostCall ext (.cpuUnsetFlag name) s = .next (.done, s.setFlags (s.flags.set name false)) :=
  whenRunning_of_running hs _

end

end Sys2Proof.Machine
end

section
/-! SUPPORT. The statements of the bridge operations (40_bridge_operations.md), settled. -/

namespace Sys2Proof.Claims

open Sys2Proof.Machine

/-- Settles O56: the step keeps the invariant (O28), `start()` faults on a started block, only stores and pushes write memory,
byte by byte, and no other operation touches what the invariant speaks of. -/
theorem hostOpsKeepRunning : Obligations.HostOpsKeepRunning := by
  intro op s t r hs h
  cases op with
  | start inp =>
    obtain ⟨-, hstarted, hfault⟩ := hs
    rw [hostCall, hostStart_of_started inp hfault hstarted, andThen_fault] at h
    cases h
  | execute =>
    obtain ⟨u, hu, ht⟩ := andThen_eq_next h
    cases ht
    exact stepKeepsRunning s t hs hu
  | memorySet addr v =>
    cases (whenRunning_eq_next h).2
    exact ⟨hs.write addr v, rfl⟩
  | cpuSetRegister w =>
    cases (whenRunning_eq_next h).2
    exact hs.writeRegister w
  | cpuPushByte b =>
    obtain ⟨u, hu, ht⟩ := andThen_eq_next (whenRunning_eq_next h).2
    cases ht
    obtain ⟨-, rfl⟩ := push_eq_next hu
    exact ⟨push_running hu hs, rfl⟩
  | cpuPushWord w =>
    obtain ⟨u, hu, ht⟩ := andThen_eq_next (whenRunning_eq_next h).2
    cases ht
    exact ⟨pushWord_running hu hs, pushWord_cfg hu⟩
  | cpuPullByte =>
    obtain ⟨⟨b, u⟩, hu, ht⟩ := andThen_eq_next (whenRunning_eq_next h).2
    cases ht
    obtain ⟨-, -, rfl⟩ := pull_eq_next hu
    exact ⟨hs.setSp _, rfl⟩
  | cpuPullWord =>
    obtain ⟨⟨w, u⟩, hu, ht⟩ := andThen_eq_next (whenRunning_eq_next h).2
    cases ht
    obtain ⟨-, -, -, rfl⟩ := pullWord_eq_next hu
    exact ⟨hs.setSp _, rfl⟩
  | cpuPcGet | memoryFetch | cpuRegister | cpuFlag =>
    cases (whenRunning_eq_next h).2
    exact ⟨hs, rfl⟩
  | cpuPcSet v =>
    cases (whenRunning_eq_next h).2
    exact ⟨hs.setPc v, rfl⟩
  | cpuSetFlag | cpuUnsetFlag =>
    cases (whenRunning_eq_next h).2
    exact ⟨hs.setFlags _, rfl⟩

/-- Settles O53: each accessor past the guard, and what the named write leaves readable under each name. -/
theorem flagAccess : Obligations.FlagAccess := by
  intro ext name s hs
  have read : ∀ n, hostCall ext (.cpuFlag n) s = .next (.bit (s.flags.get n), s) := hostCall_flag hs ext
  refine ⟨read .carry, read .zero, read .interruptDisable, read .decimal, read .overflow, read .negative, read .brk,
    hostCall_setFlag hs ext .brk, hostCall_unsetFlag hs ext .brk,
    _, _, hostCall_setFlag hs ext name, hostCall_unsetFlag hs ext name, rfl, rfl, fun hname => ?_, ?_, fun other hother => ?_⟩
  · rw [hostCall_flag (hs.setFlags _), State.setFlags_flags, Flags.get_set_same _ hname]
  · rw [hostCall_flag (hs.setFlags _), State.setFlags_flags, Flags.get_set_false]
  · exact ⟨Flags.get_set_other _ hother true, Flags.get_set_other _ hother false⟩

/-- Settles O45: `start()` is not refused at tier none, and the vector of a memory that lists nothing is two unlisted bytes. -/
theorem resetIsStartOfPowerOn : Obligations.ResetIsStartOfPowerOn := by
  have hvector : State.powerOn.vector resetVector = unlistedByte ++ unlistedByte := rfl
  rw [Obligations.ResetIsStartOfPowerOn, hostCall, hostStart_of_not_started rfl rfl (.inl rfl), andThen_next, hvector]
  rfl

/-- Settles O49: both forms of the access are the same read and the same update past the guard. -/
theorem pcAccess : Obligations.PcAccess := by
  intro ext v s hs
  exact ⟨⟨s.setPc v, hostCall_pcSet hs ext v, rfl, hostCall_pcGet (hs.setPc v) ext⟩, hostCall_pcGet hs ext, rfl, rfl⟩

/-- Settles O50: a write is read back at its address and unseen at every other. -/
theorem memoryAccess : Obligations.MemoryAccess := by
  intro ext addr v s hs
  have fetch := hostCall_memoryFetch (hs.write addr v) ext
  refine ⟨s.write addr v, hostCall_memorySet hs ext addr v, ?_, fun other hother => ?_, hostCall_memoryFetch hs ext addr,
    rfl, rfl, rfl, rfl, rfl, rfl, rfl, rfl, rfl, rfl⟩
  · rw [fetch, State.read_write_same]
  · rw [fetch, State.read_write_other _ _ hother]

/-- Settles O51: past the guard each read is `readRegister`, and `P` is the live view `PackP(0)`. -/
theorem registerReads : Obligations.RegisterReads := by
  intro ext s hs
  have read : ∀ name, hostCall ext (.cpuRegister name) s = .next (readRegister s name, s) := hostCall_register hs ext
  exact ⟨read .a, read .x, read .y, read .sp, read .pc, read .p⟩

end Sys2Proof.Claims
end

section
/-! SUPPORT. The operand bytes that stand after a fetched opcode byte, the addresses the resolver makes of them, and the outcome
of a taken branch (R93, R150 to R155, R190). -/

namespace Sys2Proof.Machine

variable {s : State} {i : Instr}

/-! The resolver against the decoded operand. -/

/-- The bytes at `PC` begin with those the encoder writes for the instruction fetched (R79, R90). -/
theorem exists_bytes_eq_encode_of_fetch (hf : fetch s = some i) :
    ∃ left, [s.read s.pc, s.read (s.pc + 1#16), s.read (s.pc + 2#16)] = encode i ++ left := by
  rw [fetch_eq] at hf
  cases hd : decode [s.read s.pc, s.read (s.pc + 1#16), s.read (s.pc + 2#16)] with
  | instr j left =>
    rw [hd] at hf
    obtain rfl : j = i := Option.some.inj hf
    exact ⟨left, eq_encode_append_of_decode hd⟩
  | _ => rw [hd] at hf; cases hf

/-- The one operand byte of an instruction fetched (R154). -/
theorem read_operand_of_bytes {op r : Byte} {left : List Byte}
    (h : [s.read s.pc, s.read (s.pc + 1#16), s.read (s.pc + 2#16)] = [op, r] ++ left) : s.read (s.pc + 1#16) = r :=
  (List.cons.inj (List.cons.inj h).2).1

/-- The two operand bytes of an instruction fetched, low byte first, are its operand (R63, R152). -/
theorem operandWord_of_bytes {op : Byte} {w : Word} {left : List Byte}
    (h : [s.read s.pc, s.read (s.pc + 1#16), s.read (s.pc + 2#16)] = [op, lo w, hi w] ++ left) :
    operandWord s.pc s = w := by
  have hlow : s.read (s.pc + 1#16) = lo w := read_operand_of_bytes h
  have hhigh : s.read (s.pc + 2#16) = hi w := (List.cons.inj (List.cons.inj (List.cons.inj h).2).2).1
  rw [operandWord, hlow, hhigh, word_hi_lo]

/-- The resolver over the bytes at `PC` finds the effective address of the instruction fetched there (R150). -/
theorem resolve_of_fetch (hf : fetch s = some i) :
    resolve i.mode s.pc s = (i.mode.operandBytes, effectiveAddress i s) := by
  obtain ⟨left, hbytes⟩ := exists_bytes_eq_encode_of_fetch hf
  cases i with
  | brk | rti | rts => rfl
  | bpl r | bmi r | bvc r | bvs r | bcc r | bcs r | bne r | beq r =>
    rw [Instr.mode, resolve, read_operand_of_bytes hbytes]; rfl
  | jsr w | jmpAbs w | jmpInd w => rw [Instr.mode, resolve, operandWord_of_bytes hbytes]; rfl

/-! Where an instruction goes. -/

/-- A jump or a call that completes goes to its effective address (R170 to R172). -/
theorem effectiveAddress_of_jump {t : State} (hm : i.mode = .absolute ∨ i.mode = .indirect) (h : exec i s = .next t) :
    effectiveAddress i s = some t.pc := by
  cases i with
  | jsr addr => obtain ⟨-, -, rfl⟩ := execJsr_eq_next h; rfl
  | jmpAbs w | jmpInd w => cases h; rfl
  | _ => rcases hm with hm | hm <;> cases hm

/-- A taken branch goes to its target, with one cycle more when the target lies in another page than the following instruction
(R155, R190, R199). -/
theorem branch_of_taken {name : FlagName} {sense : Bool} (r : Byte) (ht : s.flags.get name = sense) :
    branch name sense r s = .next { s with
      pc := relativeTarget s.pc r
      cyc := s.cyc + branchCycles true (pageCross (relativeTarget s.pc r) (s.pc + 2#16)) } := by
  rw [branch_eq, if_pos ht, decide_eq_true ht]

/-- `JMP` Indirect always completes, and writes `PC` and `CYC` alone (R171). -/
theorem exec_jmpInd (ptr : Word) (s : State) : exec (.jmpInd ptr) s = .next { s with
    pc := indirectTarget ptr s
    cyc := s.cyc + s.cfg.cycJmpInd } := rfl

/-- `PageCross` compares the numbers of the two pages (R155). -/
theorem pageCross_iff (a b : Word) : pageCross a b = true ↔ a.toNat / 256 ≠ b.toNat / 256 :=
  pageCross_eq_true.trans (not_congr hi_eq_iff)

end Sys2Proof.Machine

namespace Sys2Proof.Claims

open Sys2Proof.Machine

variable {i : Instr} {name : FlagName} {sense : Bool} {r : Byte}

/-- An instruction that tests a flag is the generic branch on it (R191 to R198). -/
theorem exec_eq_branch (h : branchCase i = some (name, sense, r)) (s : State) : exec i s = branch name sense r s := by
  cases i with
  | bpl r | bmi r | bvc r | bvs r | bcc r | bcs r | bne r | beq r => cases h; rfl
  | _ => cases h

/-- The effective address of a branch is its target, taken or not (R154). -/
theorem effectiveAddress_eq_relativeTarget (h : branchCase i = some (name, sense, r)) (s : State) :
    effectiveAddress i s = some (relativeTarget s.pc r) := by
  cases i with
  | bpl r | bmi r | bvc r | bvs r | bcc r | bcs r | bne r | beq r => cases h; rfl
  | _ => cases h

end Sys2Proof.Claims
end

section
/-! SUPPORT. The statements of the addressing modes (41_addressing_modes.md), settled. -/

namespace Sys2Proof.Claims

open Sys2Proof.Machine

/-- Settles O11: the fetched bytes are the encoding of the instruction, so the resolver assembles its operand again; each kind of
transfer loads `PC` with the address made of it. -/
theorem resolverAgreesWithExecution : Obligations.ResolverAgreesWithExecution := by
  intro s i hf
  refine ⟨resolve_of_fetch hf, fun t h => ⟨fun hm => effectiveAddress_of_jump hm h, fun name sense r hcase ht => ?_⟩⟩
  rw [exec_eq_branch hcase, branch_of_taken r ht] at h
  cases h
  exact effectiveAddress_eq_relativeTarget hcase s

/-- Settles O13: the halves of the word read through the pointer, and where its high byte is read. -/
theorem jmpIndirectOutcome : Obligations.JmpIndirectOutcome := by
  intro ptr s
  have hhigh : hi (indirectTarget ptr s) = s.read (indirectHighAddr s.cfg ptr) := hi_word _ _
  rw [indirectHighAddr_eq] at hhigh
  refine ⟨_, exec_jmpInd ptr s, lo_word _ _, fun hwrap => ?_, fun hnext => ?_, rfl, rfl, rfl,
    ⟨rfl, rfl, rfl, rfl, rfl, rfl⟩, fun _ => rfl⟩
  · rwa [if_pos hwrap] at hhigh
  · have hnowrap : ¬ (s.cfg.jmpIndPageWrap = true ∧ ptr.toNat % 256 = 255) := fun ⟨hw, hend⟩ =>
      hnext.elim (fun h => Bool.false_ne_true (h.symm.trans hw)) (fun h => h hend)
    rwa [if_neg hnowrap] at hhigh

/-- Settles O43: the page of a word is its high byte, and a taken branch compares the page of its target with that of the
following instruction. -/
theorem pageCrossComparesPages : Obligations.PageCrossComparesPages := by
  refine ⟨pageCross_iff, ?_⟩
  rintro i name sense r s target hcase ht rfl
  rw [exec_eq_branch hcase, branch_of_taken r ht, relativeTarget]
  cases pageCross (s.pc + 2#16 + sext16 r) (s.pc + 2#16) <;> rfl

end Sys2Proof.Claims
end

section
/-! SUPPORT. The jumps and subroutines as rules over the named operations, a self-jump run for any number of steps, and what
brings a call back (R170 to R174, R248). -/

namespace Sys2Proof.Machine

variable {s : State} {i : Instr}

/-! The instructions. -/

/-- `JMP` Absolute always completes, and writes `PC` and `CYC` alone (R170). -/
theorem exec_jmpAbs (addr : Word) (s : State) :
    exec (.jmpAbs addr) s = .next ((s.setPc addr).addCycles s.cfg.cycJmpAbs) := rfl

/-- `JSR` pushes the address of its own last byte, then jumps (R172). -/
theorem exec_jsr (addr : Word) (s : State) : exec (.jsr addr) s =
    andThen (pushWord (s.pc + 2#16) (advance .absolute s)) fun t => .next ((t.setPc addr).addCycles s.cfg.cycJsr) := by
  have hlast : s.pc + 3#16 - 1#16 = s.pc + 2#16 := by bv_omega
  simp only [exec, execJsr, advance_pc, Mode.operandBytes, nextPc_two, hlast]

/-! The step. -/

/-- A running block executes the instruction it fetches (R126). -/
theorem step_of_fetch (hs : s.Running) (hf : fetch s = some i) : step s = exec i s := stepWith_of_fetch [] hs hf

/-- An instruction that is its opcode byte alone is fetched wherever that byte stands (R90, R151). -/
theorem fetch_of_opcode (h : encode i = [s.read s.pc]) : fetch s = some i := by
  have hbytes : [s.read s.pc, s.read (s.pc + 1#16), s.read (s.pc + 2#16)] =
      encode i ++ [s.read (s.pc + 1#16), s.read (s.pc + 2#16)] := by rw [h]; rfl
  rw [fetch_eq, hbytes, decode_encode_append, Decoded.instr?]

/-! A self-jump. -/

/-- The cycle counter is seen neither by the guards nor by the fetch. -/
theorem State.Running.addCycles (hs : s.Running) (n : Nat) : (s.addCycles n).Running := hs

theorem State.Spins.addCycles (h : s.Spins) (n : Nat) : (s.addCycles n).Spins := h

theorem State.addCycles_addCycles (s : State) (m n : Nat) : (s.addCycles m).addCycles n = s.addCycles (m + n) := by
  simp only [State.addCycles, Nat.add_assoc]

/-- A step over a self-jump changes `CYC` alone (R170, R248). -/
theorem step_of_spins (hs : s.Running) (h : s.Spins) : step s = .next (s.addCycles s.cfg.cycJmpAbs) := by
  rw [step_of_fetch hs h, exec_jmpAbs]
  rfl

/-- So do `k` steps, by induction on `k`: after each the block stands on the same self-jump. -/
theorem run_of_spins (hs : s.Running) (h : s.Spins) (k : Nat) :
    Host.Core.run core k s = .next (s.addCycles (k * s.cfg.cycJmpAbs)) := by
  induction k generalizing s with
  | zero => rw [Nat.zero_mul]; rfl
  | succ k ih =>
    have hstep : core.step s = .next (s.addCycles s.cfg.cycJmpAbs) := step_of_spins hs h
    simp only [Host.Core.run, hstep]
    rw [ih (hs.addCycles _) (h.addCycles _), State.addCycles_cfg, State.addCycles_addCycles, Nat.succ_mul, Nat.add_comm]

/-! Room for the way back. -/

/-- An answer that is a value had room. -/
theorem CompletesIff.room_of_next {α : Type} {r : Result α} {room : Prop} {f : Fault} {v : α} (h : CompletesIff r room f)
    (hv : r = .next v) : room := by
  by_contra hroom
  cases hv.symm.trans (h.fault hroom)

/-- Where `n` pushes have room, `n` pulls from the pointer they leave have room (R72, R75). -/
theorem pullRoom_of_pushRoom {cfg : Config} {sp : Byte} {n : Nat} (h : PushRoom cfg sp n) :
    PullRoom cfg (sp - BitVec.ofNat 8 n) n :=
  h.imp_right fun hn => by
    have hlt := sp.isLt
    have hsub : (sp - BitVec.ofNat 8 n).toNat = sp.toNat - n := by bv_omega
    omega

end Sys2Proof.Machine
end

section
/-! SUPPORT. The statements of the jumps and subroutines (42_jumps_and_subroutines.md), settled. -/

namespace Sys2Proof.Claims

open Sys2Proof.Machine

/-- Settles O12: the next state, field by field. -/
theorem jmpAbsoluteOutcome : Obligations.JmpAbsoluteOutcome := by
  intro addr s
  exact ⟨_, exec_jmpAbs addr s, rfl, rfl, rfl, rfl, ⟨rfl, rfl, rfl, rfl, rfl, rfl⟩, fun _ => rfl⟩

/-- Settles O14: the outcome of the word push (O33), then the jump, which writes `PC` and `CYC` alone. -/
theorem jsrOutcome : Obligations.JsrOutcome := by
  intro addr s hroom
  obtain ⟨u, hu, hsp, hhi, hlo, hother, -, hflags, hcyc, hrest⟩ :=
    (pushWordOutcome (s.pc + 2#16) (advance .absolute s)).1 hroom
  have ht : exec (.jsr addr) s = .next ((u.setPc addr).addCycles s.cfg.cycJsr) := by rw [exec_jsr, hu, andThen_next]
  exact ⟨_, ht, rfl, hsp, hflags, congrArg (· + s.cfg.cycJsr) hcyc, hrest, hhi, hlo, hother⟩

/-- Settles O15: where there is room for both pulls the instruction completes, with the next state it then has. -/
theorem rtsOutcome : Obligations.RtsOutcome := by
  intro s hfree
  obtain ⟨t, ht⟩ := (exec_completesIff .rts s).next (hfree.imp_right fun hsp => by omega)
  obtain ⟨-, -, rfl⟩ := execRts_eq_next ht
  refine ⟨_, ht, ?_, sp_add_two s.sp, rfl, rfl, ⟨rfl, rfl, rfl, rfl, rfl, rfl⟩, fun _ => rfl⟩
  rw [sp_add_two]

/-- Settles O30: every run of the self-jump completes, in the state with only `CYC` moved. -/
theorem spinChangesOnlyCyc : Obligations.SpinChangesOnlyCyc := by
  intro s hs hspins k
  have hrun := run_of_spins hs hspins k
  exact ⟨⟨_, hrun⟩, fun t ht => Host.Outcome.next.inj (ht.symm.trans hrun)⟩

/-- Settles O38: a call that completed left room for the return, which pulls from the two addresses the call (O14) pushed to. -/
theorem callReturnRoundTrip : Obligations.CallReturnRoundTrip := by
  intro s t target hs hf hcall hop
  have hrunning : t.Running := (stepKeepsRunning s t hs hcall).1
  rw [step_of_fetch hs hf] at hcall
  have hroom : PushRoom s.cfg s.sp 2 := (exec_completesIff (.jsr target) s).room_of_next hcall
  obtain ⟨t', ht', hpc, hsp, hflags, -, ⟨-, -, -, -, -, hcfg⟩, hhi, hlo, -⟩ := jsrOutcome target s hroom
  obtain rfl : t' = t := Host.Outcome.next.inj (ht'.symm.trans hcall)
  have hback : PullRoom t'.cfg t'.sp 2 := by rw [hcfg, hsp]; exact pullRoom_of_pushRoom hroom
  have hfetch : fetch t' = some .rts := fetch_of_opcode (by rw [hpc, hop]; rfl)
  obtain ⟨u, hu, hupc, husp, huflags, -⟩ := rtsOutcome t' (hback.imp_right Nat.le_sub_of_add_le)
  have hone : t'.sp + 1#8 = s.sp - 1#8 := by rw [hsp, ← sp_sub_two, sp_sub_add]
  have htwo : t'.sp + 2#8 = s.sp := by rw [hsp, BitVec.sub_add_cancel]
  refine ⟨u, (step_of_fetch hrunning hfetch).trans hu, ?_, husp.trans htwo, huflags.trans hflags⟩
  rw [hupc, hone, htwo, hhi, hlo, word_hi_lo, BitVec.add_assoc]
  rfl

end Sys2Proof.Claims
end

section
/-! SUPPORT. The trap as a frame of three bytes on the stack: `BRK` pushes it, `RTI` takes it back from wherever it still stands
(R180 to R182, R216, R220). -/

namespace Sys2Proof.Machine

variable {s t v : State}

theorem sp_sub_three (sp : Byte) : sp - 2#8 - 1#8 = sp - 3#8 := by bv_omega

/-! The pushes of `BRK`. -/

/-- The bytes of a `BRK` at `s` stand where it pushes them: its resume address, high byte first, then the status byte (R216). -/
structure HoldsTrapFrame (s v : State) : Prop where
  high : v.read (stackAddr s.sp) = hi (s.pc + 2#16)
  low : v.read (stackAddr (s.sp - 1#8)) = lo (s.pc + 2#16)
  status : v.read (stackAddr (s.sp - 2#8)) = packP true s.flags

/-- The memory after a `BRK`, for reads at any address. -/
theorem exec_brk_mem (h : exec .brk s = .next t) :
    t.mem = ((s.mem.write (stackAddr s.sp) (hi (s.pc + 2#16))).write (stackAddr (s.sp - 1#8)) (lo (s.pc + 2#16))).write
      (stackAddr (s.sp - 2#8)) (packP true s.flags) := by
  obtain ⟨-, -, -, m, rfl, rfl⟩ := execBrk_eq_next h
  rw [← sp_sub_two]

theorem exec_brk_sp (h : exec .brk s = .next t) : t.sp = s.sp - 3#8 := by
  obtain ⟨-, -, -, m, rfl, rfl⟩ := execBrk_eq_next h
  rw [← sp_sub_three, ← sp_sub_two]

/-- The three addresses differ, so each byte pushed is still there after the last push. -/
theorem holdsTrapFrame_of_exec_brk (h : exec .brk s = .next t) : HoldsTrapFrame s t := by
  have hlow : stackAddr (s.sp - 1#8) ≠ stackAddr (s.sp - 2#8) := by
    rw [← sp_sub_two]; exact (stackAddr_pred_ne _).symm
  have hhigh : stackAddr s.sp ≠ stackAddr (s.sp - 2#8) := fun e =>
    sp_sub_two_ne s.sp ((sp_sub_two s.sp).trans (stackAddr_inj.1 e).symm)
  constructor
  · rw [State.read_def, exec_brk_mem h, Memory.read_write_other _ _ hhigh,
      Memory.read_write_other _ _ (stackAddr_pred_ne s.sp).symm, Memory.read_write_same]
  · rw [State.read_def, exec_brk_mem h, Memory.read_write_other _ _ hlow, Memory.read_write_same]
  · rw [State.read_def, exec_brk_mem h, Memory.read_write_same]

/-- Every byte but the three pushed reads as before. -/
theorem exec_brk_read_other (h : exec .brk s = .next t) {a : Word} (h1 : a ≠ stackAddr s.sp)
    (h2 : a ≠ stackAddr (s.sp - 1#8)) (h3 : a ≠ stackAddr (s.sp - 2#8)) : t.read a = s.read a := by
  rw [State.read_def, exec_brk_mem h, Memory.read_write_other _ _ h3, Memory.read_write_other _ _ h2,
    Memory.read_write_other _ _ h1, ← State.read_def]

/-- The pushes do not reach the vector, so `PC` is the word that stood there before them (R217). -/
theorem exec_brk_pc (h : exec .brk s = .next t) : t.pc = word (s.read 0xFFFF#16) (s.read 0xFFFE#16) := by
  have hvector : t.pc = word (t.read (brkVector + 1#16)) (t.read brkVector) := by
    obtain ⟨-, -, -, m, -, rfl⟩ := execBrk_eq_next h; rfl
  rw [hvector, exec_read_outside_stack h vector_outside_stack.1, exec_read_outside_stack h vector_outside_stack.2]
  rfl

/-! The pulls of `RTI`. -/

/-- Where there is room for its three pulls `RTI` completes, and writes `PC`, `SP`, the flags and `CYC` alone (R181). -/
theorem exec_rti_of_room (h : PullRoom s.cfg s.sp 3) : exec .rti s = .next { s with
    pc := word (s.read (stackAddr (s.sp + 3#8))) (s.read (stackAddr (s.sp + 2#8)))
    sp := s.sp + 3#8
    flags := unpackP (s.read (stackAddr (s.sp + 1#8)))
    cyc := s.cyc + s.cfg.cycRti } := by
  obtain ⟨t, ht⟩ := (exec_completesIff .rti s).next h
  obtain ⟨-, -, -, rfl⟩ := execRti_eq_next ht
  rw [ht, ← sp_add_three, ← sp_add_two]

/-- With the pointer below the frame of the `BRK` at `s`, `RTI` resumes at its resume address with its pointer and flags (R182). -/
theorem exec_rti_of_holdsTrapFrame (hframe : HoldsTrapFrame s v) (hsp : v.sp = s.sp - 3#8) (hroom : PullRoom v.cfg v.sp 3) :
    exec .rti v = .next { v with
      pc := s.pc + 2#16
      sp := s.sp
      flags := s.flags
      cyc := v.cyc + v.cfg.cycRti } := by
  have hone : v.sp + 1#8 = s.sp - 2#8 := by rw [hsp, ← sp_sub_three, sp_sub_add]
  have htwo : v.sp + 2#8 = s.sp - 1#8 := by rw [← sp_add_two, hone, ← sp_sub_two, sp_sub_add]
  have hthree : v.sp + 3#8 = s.sp := by rw [hsp, BitVec.sub_add_cancel]
  rw [exec_rti_of_room hroom, hone, htwo, hthree, hframe.high, hframe.low, hframe.status, word_hi_lo, unpackP_packP]

/-- A `BRK` that completed left room for the `RTI` that undoes it. -/
theorem pullRoom_of_exec_brk (h : exec .brk s = .next t) : PullRoom s.cfg (s.sp - 3#8) 3 :=
  pullRoom_of_pushRoom ((exec_completesIff .brk s).room_of_next h)

end Sys2Proof.Machine

namespace Sys2Proof.Claims

open Sys2Proof.Machine

/-! Rows of one instruction. -/

variable {i : Instr} {n : Nat} {s t : State}

theorem execTimes_succ_eq_next (h : execTimes i (n + 1) s = .next t) :
    ∃ u, exec i s = .next u ∧ execTimes i n u = .next t :=
  andThen_eq_next h

/-- The last of a row of executions. -/
theorem execTimes_succ (i : Instr) (n : Nat) (s : State) : execTimes i (n + 1) s = andThen (execTimes i n s) (exec i) := by
  induction n generalizing s with
  | zero =>
    change andThen (exec i s) (execTimes i 0) = exec i s
    cases exec i s <;> rfl
  | succ n ih =>
    rw [execTimes, execTimes]
    cases exec i s with
    | next u => exact ih u
    | fault f => rfl
    | refused q => rfl

theorem execTimes_cfg (h : execTimes i n s = .next t) : t.cfg = s.cfg := by
  induction n generalizing s with
  | zero => cases h; rfl
  | succ n ih =>
    obtain ⟨u, hu, ht⟩ := execTimes_succ_eq_next h
    exact (ih ht).trans (exec_cfg hu)

/-- A row of traps leaves alone each byte of the stack page that it does not reach, counted downwards from the pointer. -/
theorem execTimes_brk_read (h : execTimes .brk n s = .next t) {p : Byte} (hp : 3 * n ≤ (s.sp - p).toNat) :
    t.read (stackAddr p) = s.read (stackAddr p) := by
  induction n generalizing s with
  | zero => cases h; rfl
  | succ n ih =>
    obtain ⟨u, hu, ht⟩ := execTimes_succ_eq_next h
    have hne (k : Byte) (hk : k.toNat < 3) : stackAddr p ≠ stackAddr (s.sp - k) := fun e => by
      have := stackAddr_inj.1 e
      bv_omega
    rw [ih ht (by rw [exec_brk_sp hu]; bv_omega)]
    exact exec_brk_read_other hu (by simpa using hne 0#8 (by decide)) (hne 1#8 (by decide)) (hne 2#8 (by decide))

/-- Of 85 traps the stack page holds every frame: the traps after the first keep its frame (R221). -/
theorem holdsTrapFrame_of_execTimes_brk {u : State} (hn : n + 1 ≤ 85) (hu : exec .brk s = .next u)
    (h : execTimes .brk n u = .next t) : HoldsTrapFrame s t := by
  have hframe := holdsTrapFrame_of_exec_brk hu
  have hsp := exec_brk_sp hu
  constructor
  · rw [execTimes_brk_read h (by bv_omega), hframe.high]
  · rw [execTimes_brk_read h (by bv_omega), hframe.low]
  · rw [execTimes_brk_read h (by bv_omega), hframe.status]

/-- As many returns as traps undo them, the last return the first trap (R182, R221). -/
theorem execTimes_rti_of_brk (hn : n ≤ 85) (h : execTimes .brk n s = .next t) :
    ∃ u, execTimes .rti n t = .next u ∧ u.sp = s.sp ∧ u.mem = t.mem ∧
      (0 < n → u.pc = s.pc + 2#16 ∧ u.flags = s.flags) := by
  induction n generalizing s with
  | zero => cases h; exact ⟨_, rfl, rfl, rfl, fun h0 => absurd h0 (Nat.lt_irrefl 0)⟩
  | succ n ih =>
    obtain ⟨s1, hfirst, hrest⟩ := execTimes_succ_eq_next h
    obtain ⟨v, hv, hvsp, hvmem, -⟩ := ih (Nat.le_of_succ_le hn) hrest
    have hsp : v.sp = s.sp - 3#8 := hvsp.trans (exec_brk_sp hfirst)
    have hcfg : v.cfg = s.cfg := ((execTimes_cfg hv).trans (execTimes_cfg hrest)).trans (exec_cfg hfirst)
    have hroom : PullRoom v.cfg v.sp 3 := by rw [hcfg, hsp]; exact pullRoom_of_exec_brk hfirst
    have hread (a : Word) : v.read a = t.read a := by rw [State.read_def, hvmem, ← State.read_def]
    have hframe : HoldsTrapFrame s v := by
      obtain ⟨hhigh, hlow, hstatus⟩ := holdsTrapFrame_of_execTimes_brk hn hfirst hrest
      exact ⟨(hread _).trans hhigh, (hread _).trans hlow, (hread _).trans hstatus⟩
    have hlast : execTimes .rti (n + 1) t = exec .rti v := by rw [execTimes_succ, hv, andThen_next]
    exact ⟨_, hlast.trans (exec_rti_of_holdsTrapFrame hframe hsp hroom), rfl, hvmem, fun _ => ⟨rfl, rfl⟩⟩

end Sys2Proof.Claims
end

section
/-! SUPPORT. The statements of the interrupt instructions (43_interrupt_instructions.md), settled. -/

namespace Sys2Proof.Claims

open Sys2Proof.Machine

/-- Settles O16: where there is room for the three pushes the instruction completes, and leaves its frame on the stack. -/
theorem brkOutcome : Obligations.BrkOutcome := by
  intro s hroom
  obtain ⟨t, ht⟩ := (exec_completesIff .brk s).next hroom
  obtain ⟨hhigh, hlow, hstatus⟩ := holdsTrapFrame_of_exec_brk ht
  have hwrites : t.flags = { s.flags with i := true } ∧ t.cyc = s.cyc + s.cfg.cycBrk ∧ KeepsRest s t := by
    obtain ⟨-, -, -, m, -, rfl⟩ := execBrk_eq_next ht
    exact ⟨rfl, rfl, rfl, rfl, rfl, rfl, rfl, rfl⟩
  obtain ⟨hflags, hcyc, hrest⟩ := hwrites
  exact ⟨t, ht, exec_brk_pc ht, exec_brk_sp ht, hflags, hcyc, hrest, hhigh, hlow, hstatus,
    fun _ => exec_brk_read_other ht⟩

/-- Settles O17: the next state where there is room for the three pulls, field by field. -/
theorem rtiOutcome : Obligations.RtiOutcome := by
  intro s hfree
  have hroom : PullRoom s.cfg s.sp 3 := hfree.imp_right fun hsp => by omega
  exact ⟨_, exec_rti_of_room hroom, rfl, rfl, ⟨rfl, rfl, rfl, rfl, rfl, rfl⟩, rfl, ⟨rfl, rfl, rfl, rfl, rfl, rfl⟩,
    fun _ => rfl⟩

/-- Settles O39: the trap leaves its frame, its pointer below it and room for the return, which stands at the handler. -/
theorem trapReturnRoundTrip : Obligations.TrapReturnRoundTrip := by
  intro s t hs hbrk htrap hrti
  have hrunning : t.Running := (stepKeepsRunning s t hs htrap).1
  have hfetch : fetch s = some .brk := fetch_of_opcode (by rw [hbrk]; rfl)
  have hfetch' : fetch t = some .rti := fetch_of_opcode (by rw [hrti]; rfl)
  rw [step_of_fetch hs hfetch] at htrap
  have hsp : t.sp = s.sp - 3#8 := exec_brk_sp htrap
  have hroom : PullRoom t.cfg t.sp 3 := by rw [exec_cfg htrap, hsp]; exact pullRoom_of_exec_brk htrap
  have hreturn := exec_rti_of_holdsTrapFrame (holdsTrapFrame_of_exec_brk htrap) hsp hroom
  exact ⟨_, (step_of_fetch hrunning hfetch').trans hreturn, rfl, rfl, rfl⟩

/-- Settles O40, by induction on the traps, the last return undoing the first of them. -/
theorem nestedTrapsUnwind : Obligations.NestedTrapsUnwind := by
  intro n s t hpos hn h
  obtain ⟨u, hu, hsp, hmem, hresume⟩ := execTimes_rti_of_brk hn h
  obtain ⟨hpc, hflags⟩ := hresume hpos
  exact ⟨u, hu, hpc, hsp, hflags, hmem⟩

end Sys2Proof.Claims
end

section
/-! SUPPORT. Where a taken branch goes and what it costs, by its offset (R154, R190, R199, R201). -/

namespace Sys2Proof.Machine

/-- The target as a sum of signed numbers (R154). -/
theorem relativeTarget_toInt (pc0 : Word) (r : Byte) :
    (relativeTarget pc0 r).toInt = (pc0.toInt + 2 + r.toInt).bmod 65536 := by
  have hoffset : (sext16 r).toInt = r.toInt := BitVec.toInt_signExtend_of_le (by decide)
  rw [relativeTarget, BitVec.toInt_add, BitVec.toInt_add, hoffset, Int.bmod_add_bmod]
  rfl

/-- An offset below 0x80 goes forward by its number. -/
theorem relativeTarget_of_forward (pc0 : Word) {r : Byte} (h : r.toNat < 0x80) :
    relativeTarget pc0 r = pc0 + 2#16 + zext16 r := by
  have hoffset : ∀ b : Byte, b.toNat < 0x80 → sext16 b = zext16 b := by decide
  rw [relativeTarget, hoffset r h]

/-- An offset from 0x80 up goes back by the number that completes it to 0x100. -/
theorem relativeTarget_of_backward (pc0 : Word) {r : Byte} (h : 0x80 ≤ r.toNat) :
    relativeTarget pc0 r = pc0 + 2#16 - zext16 (-r) := by
  have hoffset : ∀ b : Byte, 0x80 ≤ b.toNat → sext16 b = -zext16 (-b) := by decide
  rw [relativeTarget, hoffset r h, BitVec.sub_eq_add_neg]

end Sys2Proof.Machine

namespace Sys2Proof.Claims

open Sys2Proof.Machine

variable {i : Instr} {name : FlagName} {sense : Bool} {r : Byte} {s : State}

/-- The cycles of the model's branch, by the pages of the target and of the following instruction (R199). -/
theorem branchCycles_pageCross (taken : Bool) (pc1 target : Word) :
    branchCycles taken (pageCross target pc1) = branchCost taken pc1 target := by
  by_cases hpage : page target = page pc1
  · have hcross : pageCross target pc1 = false :=
      Bool.eq_false_iff.2 fun hc => (pageCross_iff _ _).1 hc hpage
    rw [hcross, branchCost, if_pos hpage]; rfl
  · rw [(pageCross_iff _ _).2 hpage, branchCost, if_neg hpage]; rfl

/-- An instruction whose tested flag has the sense writes the target to `PC`, adds its cycles and no more (R190). -/
theorem exec_of_taken (hcase : branchCase i = some (name, sense, r)) (ht : s.flags.get name = sense) :
    exec i s = .next { s with
      pc := relativeTarget s.pc r
      cyc := s.cyc + branchCost true (s.pc + 2#16) (relativeTarget s.pc r) } := by
  rw [exec_eq_branch hcase, branch_of_taken r ht, branchCycles_pageCross]

/-- An instruction whose tested flag does not have the sense goes on to the following instruction in 2 cycles (R190). -/
theorem exec_of_not_taken (hcase : branchCase i = some (name, sense, r)) (ht : s.flags.get name ≠ sense) :
    exec i s = .next { s with pc := s.pc + 2#16, cyc := s.cyc + 2 } := by
  rw [exec_eq_branch hcase, branch_eq, if_neg ht, decide_eq_false ht]
  rfl

/-- A forward branch leaves the page when its offset reaches past the last byte (R201 e). -/
theorem branchCost_of_forward (pc0 : Word) (h : r.toNat < 0x80) :
    branchCost true (pc0 + 2#16) (relativeTarget pc0 r) = if 0x100 ≤ (pc0 + 2#16).toNat % 256 + r.toNat then 4 else 3 := by
  have hpage : page (relativeTarget pc0 r) = page (pc0 + 2#16) ↔ ¬ 0x100 ≤ (pc0 + 2#16).toNat % 256 + r.toNat := by
    rw [relativeTarget_of_forward pc0 h, page, page, zext16]
    generalize pc0 + 2#16 = pc1
    bv_omega
  simp only [branchCost, hpage, if_true, ite_not]

/-- A backward branch leaves the page when it goes back by more than the bytes before it (R201 d). -/
theorem branchCost_of_backward (pc0 : Word) (h : 0x80 ≤ r.toNat) :
    branchCost true (pc0 + 2#16) (relativeTarget pc0 r) = if (pc0 + 2#16).toNat % 256 + r.toNat < 0x100 then 4 else 3 := by
  have hpage : page (relativeTarget pc0 r) = page (pc0 + 2#16) ↔ ¬ (pc0 + 2#16).toNat % 256 + r.toNat < 0x100 := by
    rw [relativeTarget_of_backward pc0 h, page, page, zext16]
    generalize pc0 + 2#16 = pc1
    bv_omega
  simp only [branchCost, hpage, if_true, ite_not]

end Sys2Proof.Claims
end

section
/-! SUPPORT. The statements of the branches (44_branches.md), settled. -/

namespace Sys2Proof.Claims

open Sys2Proof.Machine

/-- Settles O18: the next state of a branch taken and of one not taken, field by field. -/
theorem branchOutcome : Obligations.BranchOutcome := by
  intro i name sense r s hcase
  by_cases ht : s.flags.get name = sense
  · exact ⟨_, exec_of_taken hcase ht, fun _ => ⟨relativeTarget_toInt s.pc r, rfl⟩, absurd ht, rfl, rfl,
      ⟨rfl, rfl, rfl, rfl, rfl, rfl⟩, fun _ => rfl⟩
  · exact ⟨_, exec_of_not_taken hcase ht, fun h => absurd h ht, fun _ => ⟨rfl, rfl⟩, rfl, rfl,
      ⟨rfl, rfl, rfl, rfl, rfl, rfl⟩, fun _ => rfl⟩

/-- Settles O19: each offset goes forward or back, and the cost of its direction is the one R201 gives. -/
theorem branchCornerCases : Obligations.BranchCornerCases := by
  intro i name sense r s t hcase ht h
  rw [exec_of_taken hcase ht] at h
  cases h
  refine ⟨?zero, ?itself, ?operand, ?farthestBack, ?farthestOn, fun ⟨hpc0, hr⟩ => ?pageEnd⟩
  case zero =>
    rintro rfl
    have htarget : relativeTarget s.pc 0x00#8 = s.pc + 2#16 := BitVec.add_zero _
    exact ⟨htarget, congrArg (s.cyc + ·) (by rw [htarget, branchCost, if_pos rfl, if_pos rfl])⟩
  case itself =>
    rintro rfl
    refine ⟨(relativeTarget_of_backward s.pc (by decide)).trans (BitVec.add_sub_cancel _ _), congrArg (s.cyc + ·) ?_⟩
    rw [branchCost_of_backward s.pc (by decide)]
    exact if_congr (by bv_omega) rfl rfl
  case operand =>
    rintro rfl
    exact BitVec.add_assoc _ _ _
  case farthestBack =>
    rintro rfl
    refine ⟨relativeTarget_of_backward s.pc (by decide), congrArg (s.cyc + ·) ?_⟩
    rw [branchCost_of_backward s.pc (by decide)]
    exact if_congr (by bv_omega) rfl rfl
  case farthestOn =>
    rintro rfl
    refine ⟨relativeTarget_of_forward s.pc (by decide), congrArg (s.cyc + ·) ?_⟩
    rw [branchCost_of_forward s.pc (by decide)]
    exact if_congr (by bv_omega) rfl rfl
  case pageEnd =>
    refine congrArg (s.cyc + ·) ?_
    rw [branchCost_of_forward s.pc hr]
    exact if_neg (by bv_omega)

end Sys2Proof.Claims
end
